-- ==== Sys2Proof/Word.lean ====
section
/-! DEFINITION. The types of 00_scope.md R7 and the one arithmetic operation on words, R8. -/

namespace Sys2Proof

/-- A byte, 0..255 (R7). -/
abbrev Byte := BitVec 8

/-- A word: an unsigned 32-bit integer, arithmetic modulo 2^32 (R7). -/
abbrev Word := BitVec 32

/-- The type of NBYTES (R7, R26). -/
abbrev U61 := BitVec 61

/-- The type of the message bit length (R7, R13). -/
abbrev U64 := BitVec 64

/-- A command word: OP in bits 11..8, ARG in bits 7..0 (R70, R71). -/
abbrev CmdWord := BitVec 12

/-- A response word: FAULT in bit 8, DATA in bits 7..0 (R78). -/
abbrev Response := BitVec 9

/-- A block: exactly 64 bytes (R7). -/
abbrev Block := Vector Byte 64

/-- An ordered 8-tuple of words (R7). -/
abbrev State8 := Vector Word 8

/-- `add32` of R8: the sum modulo 2^32, with no carry out and no flag. -/
def add32 (x y : Word) : Word := x + y

end Sys2Proof
end

