-- ==== Sys2Proof/Syntax.lean ====
section
/-! DEFINITION. The six commands of 30_encoding.md R73, one constructor for each row of spec/opcode_table.json. -/

namespace Sys2Proof

/-- A decoded legal command (R77). An operand has exactly the width of its field, so that every term is a legal
command: R72 makes all 256 bytes and all 32 indices legal and gives the others no operand. -/
inductive Instr where
  /-- NOP (R163). -/
  | nop
  /-- INIT: begin a fresh computation (R164). -/
  | init
  /-- ABSORB byte: append one message byte (R165). -/
  | absorb (byte : Byte)
  /-- FINAL: pad, process the tail, expose the digest (R166). -/
  | final
  /-- RDDIG idx: read one digest byte (R167). -/
  | rddig (idx : BitVec 5)
  /-- RDSTAT: read the status byte (R168). -/
  | rdstat
deriving DecidableEq, Repr

end Sys2Proof
end

