-- ==== Sys2Proof/WellFormed.lean ====
section
/-! DEFINITION. Which 12-bit words are commands: the match and mask table of 30_encoding.md R73.

An `Instr` carries its operand at the operand's own width, so a term of `Instr` cannot be ill-formed; what the host can
present wrongly is a WORD, and R75 says which words are reserved. The check is therefore on words. -/

namespace Sys2Proof

/-- A row of R73's table: a word selects the row when `(word AND mask) = pattern`. -/
structure OpcodeRow where
  mnemonic : String
  pattern  : CmdWord
  mask     : CmdWord
deriving DecidableEq, Repr

/-- The row's test (R73). -/
def OpcodeRow.selects (r : OpcodeRow) (w : CmdWord) : Bool := w &&& r.mask == r.pattern

/-- R73's rows. -/
def rowNop    : OpcodeRow := ⟨"NOP",    0x000, 0xFFF⟩
def rowInit   : OpcodeRow := ⟨"INIT",   0x100, 0xFFF⟩
def rowAbsorb : OpcodeRow := ⟨"ABSORB", 0x200, 0xF00⟩
def rowFinal  : OpcodeRow := ⟨"FINAL",  0x300, 0xFFF⟩
def rowRddig  : OpcodeRow := ⟨"RDDIG",  0x400, 0xFE0⟩
def rowRdstat : OpcodeRow := ⟨"RDSTAT", 0x500, 0xFFF⟩

/-- R73's table, in the table's order. -/
def opcodeTable : List OpcodeRow := [rowNop, rowInit, rowAbsorb, rowFinal, rowRddig, rowRdstat]

/-- The row of a command. -/
def Instr.row : Instr → OpcodeRow
  | .nop      => rowNop
  | .init     => rowInit
  | .absorb _ => rowAbsorb
  | .final    => rowFinal
  | .rddig _  => rowRddig
  | .rdstat   => rowRdstat

/-- A word is well formed when it matches a row; every other word is reserved (R75). -/
def CmdWord.wellFormed (w : CmdWord) : Bool := opcodeTable.any (fun r => r.selects w)

end Sys2Proof
end

