-- ==== Sys2Proof/Decode.lean ====
section
/-! DEFINITION. Decoding and encoding of command words (30_encoding.md R71, R75, R77). -/

namespace Sys2Proof

/-- Why a word is reserved: the three classes of R75. All of them are the one result `Illegal` of R77. -/
inductive Reserved where
  /-- OP is 0x6 .. 0xF. -/
  | opcode
  /-- OP is NOP's, INIT's, FINAL's or RDSTAT's and ARG is not 0x00. -/
  | argument
  /-- OP is RDDIG's and ARG[7:5] is not 000. -/
  | index
deriving DecidableEq, Repr

/-- The result of `Decode` (R77): a command, or Illegal with the class of reserved word. -/
inductive Decoded where
  | command (i : Instr)
  | illegal (why : Reserved)
deriving DecidableEq, Repr

/-- The OP field, bits 11..8 (R71). -/
def CmdWord.op (w : CmdWord) : BitVec 4 := w.extractLsb' 8 4

/-- The ARG field, bits 7..0 (R71). -/
def CmdWord.arg (w : CmdWord) : Byte := w.extractLsb' 0 8

/-- A command without operand: ARG must be 0x00 (R72). -/
def decodeBare (arg : Byte) (i : Instr) : Decoded :=
  if arg = 0x00 then .command i else .illegal .argument

/-- `Decode` (R77), total: exactly one of the six commands or Illegal. -/
def decode (w : CmdWord) : Decoded :=
  let arg := CmdWord.arg w
  if CmdWord.op w = 0x0 then decodeBare arg .nop
  else if CmdWord.op w = 0x1 then decodeBare arg .init
  else if CmdWord.op w = 0x2 then .command (.absorb arg)
  else if CmdWord.op w = 0x3 then decodeBare arg .final
  else if CmdWord.op w = 0x4 then
    if arg.extractLsb' 5 3 = 0 then .command (.rddig (arg.extractLsb' 0 5)) else .illegal .index
  else if CmdWord.op w = 0x5 then decodeBare arg .rdstat
  else .illegal .opcode

/-- The command of a decoding, if it is one. -/
def Decoded.toOption : Decoded → Option Instr
  | .command i => some i
  | .illegal _ => none

/-- `Encode` (R77). -/
def encode : Instr → CmdWord
  | .nop      => 0x000
  | .init     => 0x100
  | .absorb b => 0x2#4 ++ b
  | .final    => 0x300
  | .rddig i  => 0x4#4 ++ (0#3 ++ i)
  | .rdstat   => 0x500

/-- The command of an opcode table word: its low `nbits` bits, those above being 0; a command word has 12 bits, so a
number that needs more is no word. -/
def decodeTableWord (nbits w : Nat) : Option Instr :=
  if w % 2 ^ nbits < 2 ^ 12 then (decode (BitVec.ofNat 12 (w % 2 ^ nbits))).toOption else none

/-! Every constructor's decoding on a word written out from R73: OP, then ARG. -/

theorem decode_word_nop : decode 0b0000_00000000#12 = .command .nop := by decide
theorem decode_word_init : decode 0b0001_00000000#12 = .command .init := by decide
theorem decode_word_absorb : decode 0b0010_01100001#12 = .command (.absorb 0x61) := by decide
theorem decode_word_final : decode 0b0011_00000000#12 = .command .final := by decide
theorem decode_word_rddig : decode 0b0100_00011110#12 = .command (.rddig 30) := by decide
theorem decode_word_rdstat : decode 0b0101_00000000#12 = .command .rdstat := by decide

end Sys2Proof
end

