-- ==== Sys2Proof/Config.lean ====
section
/-! DEFINITION. What the spec leaves to an implementation, and the one free value of the model. -/

namespace Sys2Proof

/-- What a byte of BUF that nothing has written since `Machine.State.reset` reads as.
DESIGN CHOICE (log entry 3, unsafe): R25 leaves the reset contents unspecified. -/
def Config.bufUnwritten : Byte := 0x00

/-- The largest value of NBYTES: 2^61 - 1 bytes is the longest message the length field can hold (R26, R92). -/
def Config.maxBytes : Nat := 2 ^ 61 - 1

/-- `LATENCY(command, state)` less one, OPEN in the spec (D29, R226): given the command's word, the machine's whole state
before it (`σ` is `Machine.State`, which this file comes before) and which accepted command it is, counted from 0.
It has no body: nothing can be proved about its value, so a claim that mentions it holds for every latency, also one that
depends on data (R228). Only the port layer reads it (log entry 6). -/
opaque Config.latencyBeyondOne {σ : Type} : CmdWord → σ → Nat → Nat

end Sys2Proof
end

