-- ==== Sys2Proof/Machine/State.lean ====
section
/-! DEFINITION. The state of one SHA256CORE (10_state.md R20), the events it takes (46_commands.md R161), and reset. -/

namespace Sys2Proof.Machine

/-- PHASE (R27): 2 bits, all four values legal. -/
inductive Phase where
  | idle | active | done | error
deriving DecidableEq, Repr

/-- ERR (R28): 2 bits, all four values legal. -/
inductive ErrCode where
  | none | lengthOverflow | protocol | illegalCmd
deriving DecidableEq, Repr

/-- The three faults a command can raise (R190). They are TAKEN: the result is a next state (R196). -/
inductive CommandFault where
  /-- ABSORB with the byte counter full (R191). -/
  | lengthOverflow
  /-- A legal word in a phase where it is not allowed (R192). -/
  | protocolFault
  /-- A reserved word (R193). -/
  | illegalCommand
deriving DecidableEq, Repr

/-- The working variables a..h of the Compressor (R22). -/
structure Work where
  a : Word
  b : Word
  c : Word
  d : Word
  e : Word
  f : Word
  g : Word
  h : Word
deriving DecidableEq, Repr

/-- BUF as data (R25, R50): address and byte, in the one canonical form `Memory.wf`. -/
abbrev Memory := List Host.Cell

/-- The addresses of a list of cells rise strictly, all above `lo`. -/
def Memory.risesAbove : Nat → Memory → Bool
  | _, [] => true
  | lo, (k, _) :: m => lo ≤ k && Memory.risesAbove (k + 1) m

/-- The canonical form: addresses rise strictly, all are BUF indices 0..63 (R50), and no cell holds what an unlisted
address reads as. -/
def Memory.wf (m : Memory) : Bool :=
  Memory.risesAbove 0 m && m.all (fun c => c.1 < 64 && c.2 != Config.bufUnwritten)

/-- RESET_DATA: arbitrary contents of the data registers after a reset event (R5, R220). -/
structure ResetData where
  h      : State8
  nbytes : U61
  buf    : Block
  work   : Work
  w      : Vector Word 64
deriving DecidableEq, Repr

/-- An event of the command-level machine (R161). -/
inductive Event where
  /-- A command word is accepted. -/
  | command (word : CmdWord)
  /-- A reset event, with the contents the data registers come up with. -/
  | reset (contents : ResetData)
deriving DecidableEq, Repr

/-- The state: every row of R20's table that is storage, the response port (R82), and the events still to come. -/
structure State where
  /-- PHASE (R27). -/
  phase   : Phase
  /-- ERR (R28). -/
  err     : ErrCode
  /-- H[0..7] (R21). -/
  h       : State8
  /-- NBYTES (R26). -/
  nbytes  : U61
  /-- BUF[0..63] (R25). -/
  buf     : Memory
  /-- a..h, scratch (R22). -/
  work    : Work
  /-- W[0..63], scratch (R24). -/
  w       : Vector Word 64
  /-- rsp_valid and rsp (R82): the response of the last step's command, `none` while rsp_valid = 0. -/
  rsp     : Option Response
  /-- The model's own: the events the host will present, oldest first (log entry 5). -/
  pending : List Event
deriving DecidableEq, Repr

/-- Why the machine would stop: never. R161: "there is no stuck state and no undefined result"; the three faults of
R190 are next states. Nothing raises this; it is safe. -/
inductive Fault where
deriving DecidableEq, Repr

/-- Why the model would give an instruction no meaning. -/
inductive Refusal where
  /-- Raised by an arm of `exec` for an instruction without a meaning; safe. No arm raises it in this model. -/
  | notModelled (mnemonic : String)
deriving DecidableEq, Repr

/-- What one step answers. -/
abbrev Outcome := Host.Outcome State Fault Refusal

/-- The contents `State.reset` takes for what R220 leaves unspecified: zeros. DESIGN CHOICE, log entries 1 and 3. -/
def ResetData.zero : ResetData where
  h      := #v[0, 0, 0, 0, 0, 0, 0, 0]
  nbytes := 0
  buf    := Vector.replicate 64 Config.bufUnwritten
  work   := ⟨0, 0, 0, 0, 0, 0, 0, 0⟩
  w      := Vector.replicate 64 0

/-- The machine right after reset (R220): PHASE = IDLE, ERR = NONE, rsp_valid = 0; the data registers as the log says. -/
def State.reset : State where
  phase   := .idle
  err     := .none
  h       := ResetData.zero.h
  nbytes  := ResetData.zero.nbytes
  buf     := []
  work    := ResetData.zero.work
  w       := ResetData.zero.w
  rsp     := none
  pending := []

end Sys2Proof.Machine
end

