-- ==== Sys2Proof/Machine/Flags.lean ====
section
/-! DEFINITION. Status and response words, and the block's three length tests (10_state.md R27 to R29, R33;
30_encoding.md R78). There are no arithmetic flags (R33): PHASE and ERR are the only status. -/

namespace Sys2Proof.Machine

/-- The 2-bit value of PHASE (R27). -/
def Phase.code : Phase → BitVec 2
  | .idle   => 0
  | .active => 1
  | .done   => 2
  | .error  => 3

/-- The 2-bit value of ERR (R28). -/
def ErrCode.code : ErrCode → BitVec 2
  | .none           => 0
  | .lengthOverflow => 1
  | .protocol       => 2
  | .illegalCmd     => 3

/-- The code a fault records in ERR (R190). -/
def CommandFault.code : CommandFault → ErrCode
  | .lengthOverflow => .lengthOverflow
  | .protocolFault  => .protocol
  | .illegalCommand => .illegalCmd

/-- `STATUS = zext_8(ERR ‖ PHASE)` (R29). -/
def statusByte (e : ErrCode) (p : Phase) : Byte := 0#4 ++ (e.code ++ p.code)

/-- The response of a command that was performed: FAULT = 0 (R78). -/
def okResponse (data : Byte) : Response := 0#1 ++ data

/-- The response of a command that raised a fault: FAULT = 1 and `zext_8(ERR)` (R78, R196). -/
def faultResponse (e : ErrCode) : Response := 1#1 ++ (0#6 ++ e.code)

/-- The buffer fill r = NBYTES mod 64 (R26). -/
def bufferFill (n : U61) : Nat := n.toNat % 64

/-- After an ABSORB: the byte just counted filled the buffer (R33, R165). -/
def bufferFull (n : U61) : Bool := bufferFill n == 0

/-- At an ABSORB: the counter cannot count another byte (R33, R191). -/
def counterFull (n : U61) : Bool := n.toNat == Config.maxBytes

/-- At FINAL: the length does not fit in the first tail block (R33, R166). -/
def tailTakesTwoBlocks (n : U61) : Bool := 56 ≤ bufferFill n

/-- The message bit length L = NBYTES ‖ 000 (R26). -/
def bitLength (n : U61) : U64 := n ++ 0#3

end Sys2Proof.Machine
end

