-- ==== Sys2Proof/Machine/Operands.lean ====
section
/-! DEFINITION. The primitives on words and the byte orders: 00_scope.md R9 to R13, 20_memory.md R51. -/

namespace Sys2Proof.Machine

/-- `rotr` of R9: circular right-rotate on 32 bits, for the constant amounts 0 < n < 32 the rules use. -/
def rotr (x : Word) (n : Nat) : Word := (x >>> n) ||| (x <<< (32 - n))

/-- `shr` of R10: logical right shift. -/
def shr (x : Word) (n : Nat) : Word := x >>> n

/-- `BE32` of R12: the first byte is the most significant. -/
def be32 (b0 b1 b2 b3 : Byte) : Word := b0 ++ b1 ++ b2 ++ b3

/-- Byte `j` of a big-endian rendering of `n` bytes, byte 0 being the most significant (R12, R13). -/
def beByte (n : Nat) (v : BitVec (8 * n)) (j : Nat) : Byte := v.extractLsb' (8 * (n - 1 - j)) 8

/-- `ToBE32` of R12. -/
def toBE32 (w : Word) : List Byte := (List.range 4).map (beByte 4 w)

/-- `ToBE64` of R13. -/
def toBE64 (v : U64) : List Byte := (List.range 8).map (beByte 8 v)

end Sys2Proof.Machine
end

