-- ==== Sys2Proof/Machine/Ops.lean ====
section
/-! DEFINITION. The shared operations on state: one update for each field, access to BUF (00_scope.md R14), fault entry
(60_exceptions.md R196), the reset event (70_reset_and_hazards.md R220), and taking the next event. -/

namespace Sys2Proof.Machine

/-! One update for each field. -/

def State.setPhase (s : State) (p : Phase) : State := { s with phase := p }
def State.setErr (s : State) (e : ErrCode) : State := { s with err := e }
def State.setH (s : State) (h : State8) : State := { s with h := h }
def State.setNbytes (s : State) (n : U61) : State := { s with nbytes := n }
def State.setBuf (s : State) (m : Memory) : State := { s with buf := m }
def State.setWork (s : State) (v : Work) : State := { s with work := v }
def State.setW (s : State) (w : Vector Word 64) : State := { s with w := w }
def State.setRsp (s : State) (r : Option Response) : State := { s with rsp := r }
def State.setPending (s : State) (es : List Event) : State := { s with pending := es }

/-! BUF. -/

/-- `MemRead(BUF, a, 1)` (R14). -/
def Memory.read : Memory → Nat → Byte
  | [], _ => Config.bufUnwritten
  | (k, b) :: m, a => if k = a then b else Memory.read m a

/-- The cells of address `a` holding `b`: none, if that is what an unlisted address reads as. -/
def Memory.cell (a : Nat) (b : Byte) : Memory :=
  if b = Config.bufUnwritten then [] else [(a, b)]

/-- `MemWrite(BUF, a, 1, b)` (R14), which keeps the canonical form. -/
def Memory.write : Memory → Nat → Byte → Memory
  | [], a, b => Memory.cell a b
  | (k, c) :: m, a, b =>
    if a < k then Memory.cell a b ++ (k, c) :: m
    else if a = k then Memory.cell a b ++ m
    else (k, c) :: Memory.write m a b

/-- `BUF[a], BUF[a+1], ... <- bytes`, in increasing order of index. -/
def Memory.writeBytes : Memory → Nat → List Byte → Memory
  | m, _, [] => m
  | m, a, b :: bs => Memory.writeBytes (Memory.write m a b) (a + 1) bs

/-- `MemRead(BUF, a, 4)`, for `a` a multiple of 4 (R14). -/
def Memory.read32 (m : Memory) (a : Nat) : Word :=
  be32 (Memory.read m a) (Memory.read m (a + 1)) (Memory.read m (a + 2)) (Memory.read m (a + 3))

/-- The 64 bytes of BUF, index 0 first. -/
def Memory.block (m : Memory) : Block := Vector.ofFn (fun i => Memory.read m i.val)

/-- BUF holding the given 64 bytes. -/
def Memory.ofBlock (b : Block) : Memory := Memory.writeBytes [] 0 b.toList

/-! Responses and faults. -/

/-- The command was performed, with this DATA byte (R78). -/
def State.respond (s : State) (data : Byte) : State := s.setRsp (some (okResponse data))

/-- What fault entry writes besides the response: ERR and PHASE, and only if PHASE is not ERROR already (R196, R199). -/
def recordFault (f : CommandFault) (s : State) : State :=
  if s.phase = .error then s else (s.setErr f.code).setPhase .error

/-- `raise f` (R15): fault entry, applied to the state before the command, so that the command has no effect of its own
(R196). The response carries ERR as it stands after entry. -/
def raise (f : CommandFault) (s : State) : State :=
  let t := recordFault f s
  t.setRsp (some (faultResponse t.err))

/-! Events. -/

/-- The reset event (R220): PHASE, ERR and rsp_valid are reset, everything else comes up as `d` says. -/
def resetEvent (d : ResetData) (s : State) : State where
  phase   := .idle
  err     := .none
  h       := d.h
  nbytes  := d.nbytes
  buf     := Memory.ofBlock d.buf
  work    := d.work
  w       := d.w
  rsp     := none
  pending := s.pending

/-- The next event the host presents, taken off the front of `pending`. -/
def takeEvent (s : State) : Option (Event × State) :=
  match s.pending with
  | [] => none
  | e :: es => some (e, s.setPending es)

/-- No event: the block waits (R220), and rsp_valid, which is up for one cycle only (R82), is down. -/
def awaitEvent (s : State) : State := s.setRsp none

end Sys2Proof.Machine
end

