-- ==== Sys2Proof/Machine/Compressor.lean ====
section
/-! DEFINITION. The Compressor (43_compressor.md R121 to R130). -/

namespace Sys2Proof.Machine

/-- `bsig0` (R121). -/
def bsig0 (x : Word) : Word := rotr x 2 ^^^ rotr x 13 ^^^ rotr x 22

/-- `bsig1` (R122). -/
def bsig1 (x : Word) : Word := rotr x 6 ^^^ rotr x 11 ^^^ rotr x 25

/-- `Ch` (R123). -/
def ch (e f g : Word) : Word := (e &&& f) ^^^ (~~~e &&& g)

/-- `Maj` (R124). -/
def maj (a b c : Word) : Word := (a &&& b) ^^^ (a &&& c) ^^^ (b &&& c)

/-- `T1` of a round (R126). -/
def temp1 (v : Work) (k w : Word) : Word :=
  add32 (add32 (add32 (add32 v.h (bsig1 v.e)) (ch v.e v.f v.g)) k) w

/-- `T2` of a round (R126). -/
def temp2 (v : Work) : Word := add32 (bsig0 v.a) (maj v.a v.b v.c)

/-- The simultaneous assignment of a round, with its constant `k` = K[t] and its schedule word `w` = W[t] (R126). -/
def mixRound (v : Work) (k w : Word) : Work where
  a := add32 (temp1 v k w) (temp2 v)
  b := v.a
  c := v.b
  d := v.c
  e := add32 v.d (temp1 v k w)
  f := v.e
  g := v.f
  h := v.g

/-- LOADWORK on values: a..h from the eight words of H (R125). -/
def Work.ofState8 (h : State8) : Work := ⟨h[0], h[1], h[2], h[3], h[4], h[5], h[6], h[7]⟩

/-- LOADWORK (R125). -/
def loadWork (s : State) : State := s.setWork (Work.ofState8 s.h)

/-- ROUND t (R126). -/
def roundOp (t : Nat) (ht : t < 64) (s : State) : State := s.setWork (mixRound s.work Tables.K[t] s.w[t])

/-- ROUND 0 .. ROUND n − 1, in strict order (R127). -/
def firstRounds : (n : Nat) → n ≤ 64 → State → State
  | 0, _, s => s
  | n + 1, hn, s => roundOp n hn (firstRounds n (Nat.le_of_succ_le hn) s)

/-- ROUND 0 .. ROUND 63 (R127). -/
@[irreducible] def allRounds (s : State) : State := firstRounds 64 (Nat.le_refl 64) s

/-- OUT (R128): the old state added elementwise to a..h. -/
def compressorOut (h : State8) (v : Work) : State8 :=
  #v[add32 h[0] v.a, add32 h[1] v.b, add32 h[2] v.c, add32 h[3] v.d,
     add32 h[4] v.e, add32 h[5] v.f, add32 h[6] v.g, add32 h[7] v.h]

/-- The first `n` rounds of `Compress` on values: v_{t+1} = Round(v_t, t, w) (R130). -/
def roundsOn (w : Vector Word 64) : (n : Nat) → n ≤ 64 → Work → Work
  | 0, _, v => v
  | n + 1, hn, v => mixRound (roundsOn w n (Nat.le_of_succ_le hn) v) Tables.K[n] w[n]

/-- `Compress(s, w)` (R130). -/
@[irreducible] def compress (s : State8) (w : Vector Word 64) : State8 :=
  compressorOut s (roundsOn w 64 (Nat.le_refl 64) (Work.ofState8 s))

end Sys2Proof.Machine
end

