-- ==== Sys2Proof/Machine/Parser.lean ====
section
/-! DEFINITION. The Block Parser (41_block_parser.md R101). -/

namespace Sys2Proof.Machine

/-- `Words(B)` (R101). -/
def words (b : Block) : Vector Word 16 :=
  Vector.ofFn (fun j => be32 b[4 * j.val] b[4 * j.val + 1] b[4 * j.val + 2] b[4 * j.val + 3])

/-- The first `n` assignments of PARSE, `W[j] <- MemRead(BUF, 4·j, 4)` (R101). -/
def parseSteps (m : Memory) : (n : Nat) → n ≤ 16 → Vector Word 64 → Vector Word 64
  | 0, _, w => w
  | n + 1, hn, w => (parseSteps m n (Nat.le_of_succ_le hn) w).set n (Memory.read32 m (4 * n))

/-- PARSE on the schedule array: j = 0..15 (R101). -/
@[irreducible] def parseInto (m : Memory) (w : Vector Word 64) : Vector Word 64 := parseSteps m 16 (Nat.le_refl 16) w

/-- PARSE (R101). -/
def parse (s : State) : State := s.setW (parseInto s.buf s.w)

end Sys2Proof.Machine
end

