-- ==== Sys2Proof/Machine/Scheduler.lean ====
section
/-! DEFINITION. The Message Scheduler (42_message_schedule.md R111 to R115). -/

namespace Sys2Proof.Machine

/-- `ssig0` (R111). -/
def ssig0 (x : Word) : Word := rotr x 7 ^^^ rotr x 18 ^^^ shr x 3

/-- `ssig1` (R112). -/
def ssig1 (x : Word) : Word := rotr x 17 ^^^ rotr x 19 ^^^ shr x 10

/-- One index of EXPAND, t = i + 16:
`W[t] <- add32(ssig1(W[t−2]), W[t−7], ssig0(W[t−15]), W[t−16])` (R113). -/
def expandStep (i : Nat) (hi : i < 48) (w : Vector Word 64) : Vector Word 64 :=
  w.set (i + 16) (add32 (add32 (add32 (ssig1 w[i + 14]) w[i + 9]) (ssig0 w[i + 1])) w[i])

/-- The first `n` indices of EXPAND, t = 16, 17, .., in increasing order (R113). -/
def expandSteps : (n : Nat) → n ≤ 48 → Vector Word 64 → Vector Word 64
  | 0, _, w => w
  | n + 1, hn, w => expandStep n hn (expandSteps n (Nat.le_of_succ_le hn) w)

/-- EXPAND on the schedule array (R113). -/
@[irreducible] def expandWords (w : Vector Word 64) : Vector Word 64 := expandSteps 48 (Nat.le_refl 48) w

/-- EXPAND (R113). -/
def expand (s : State) : State := s.setW (expandWords s.w)

/-- `Schedule(m)` (R115): the block's sixteen words and the forty-eight the recurrence gives. -/
def schedule (m : Vector Word 16) : Vector Word 64 :=
  expandWords (Vector.ofFn (fun t => if h : t.val < 16 then m[t.val] else 0))

end Sys2Proof.Machine
end

