-- ==== Sys2Proof/Machine/Accumulator.lean ====
section
/-! DEFINITION. The State Accumulator's operation BLOCK (44_state_accumulator.md R141). -/

namespace Sys2Proof.Machine

/-- The last step of BLOCK: all eight words of H at once (R141). -/
def accumulate (s : State) : State := s.setH (compressorOut s.h s.work)

/-- BLOCK: one compression pass (R141). -/
def block (s : State) : State := accumulate (allRounds (loadWork (expand (parse s))))

/-- The function form of BLOCK's effect on H (R141): `Compress(H, Schedule(Words(B)))`. -/
def compressBlock (h : State8) (b : Block) : State8 := compress h (schedule (words b))

end Sys2Proof.Machine
end

