-- ==== Sys2Proof/Machine/Digest.lean ====
section
/-! DEFINITION. The Digest Assembler (45_digest_assembler.md R150 to R153, 20_memory.md R54). -/

namespace Sys2Proof.Machine

/-- `Digest(s)` (R150): each word as 4 big-endian bytes, in state order. -/
def digest (s : State8) : List Byte := s.toList.flatMap toBE32

/-- The DIG window, `MemRead(DIG, i, 1) = ToBE32(H[floor(i/4)])[i mod 4]` (R54). -/
def readDig (h : State8) (i : BitVec 5) : Byte :=
  beByte 4 (h[i.toNat / 4]'(by have := i.isLt; omega)) (i.toNat % 4)

/-- DIGEST256 (R153): H[0] in bits 255..224. It is not a port of the block. -/
def digest256 (h : State8) : BitVec 256 :=
  h[0] ++ h[1] ++ h[2] ++ h[3] ++ h[4] ++ h[5] ++ h[6] ++ h[7]

end Sys2Proof.Machine
end

