-- ==== Sys2Proof/Machine/Padder.lean ====
section
/-! DEFINITION. The Padder's two hardware operations (40_padder.md R93, R94). -/

namespace Sys2Proof.Machine

/-- The length field `ToBE64(8·NBYTES)` (R93, R94). -/
def lengthField (n : U61) : List Byte := toBE64 (bitLength n)

/-- What PADTAIL1 makes of BUF when NBYTES is `n` (R93). -/
def padTail1Buf (n : U61) (m : Memory) : Memory :=
  let r := bufferFill n
  let m := Memory.write m r 0x80
  if r ≤ 55 then
    Memory.writeBytes (Memory.writeBytes m (r + 1) (List.replicate (55 - r) 0x00)) 56 (lengthField n)
  else
    Memory.writeBytes m (r + 1) (List.replicate (63 - r) 0x00)

/-- What PADTAIL2 makes of BUF when NBYTES is `n` (R94). -/
def padTail2Buf (n : U61) (m : Memory) : Memory :=
  Memory.writeBytes (Memory.writeBytes m 0 (List.replicate 56 0x00)) 56 (lengthField n)

/-- PADTAIL1 (R93). -/
def padTail1 (s : State) : State := s.setBuf (padTail1Buf s.nbytes s.buf)

/-- PADTAIL2 (R94). -/
def padTail2 (s : State) : State := s.setBuf (padTail2Buf s.nbytes s.buf)

end Sys2Proof.Machine
end

