-- ==== Sys2Proof/Machine/Commands.lean ====
section
/-! DEFINITION. The meanings of the six commands (46_commands.md R163 to R168). None of them ends in a fault or a
refusal: a command that is not allowed raises a fault of R190, which is a next state. -/

namespace Sys2Proof.Machine

/-- NOP (R163). -/
def execNop (s : State) : Outcome := .next (s.respond 0x00)

/-- INIT's effect (R164). BUF is not written. -/
def initState (s : State) : State :=
  (((s.setH Tables.H0).setNbytes 0).setErr .none).setPhase .active

/-- INIT (R164), legal in every phase. -/
def execInit (s : State) : Outcome := .next ((initState s).respond 0x00)

/-- The store and the count of an ABSORB: `BUF[NBYTES mod 64] <- byte; NBYTES <- NBYTES + 1` (R165). -/
def storeByte (byte : Byte) (s : State) : State :=
  (s.setBuf (Memory.write s.buf (bufferFill s.nbytes) byte)).setNbytes (s.nbytes + 1)

/-- `if NBYTES mod 64 = 0: BLOCK`, on the incremented counter (R165). -/
def blockIfFull (s : State) : State := if bufferFull s.nbytes then block s else s

/-- ABSORB (R165). -/
def execAbsorb (byte : Byte) (s : State) : Outcome :=
  if s.phase ≠ .active then .next (raise .protocolFault s)
  else if counterFull s.nbytes then .next (raise .lengthOverflow s)
  else .next ((blockIfFull (storeByte byte s)).respond 0x00)

/-- FINAL's work on the tail: PADTAIL1, BLOCK and, when r ≥ 56, PADTAIL2, BLOCK (R166). -/
def finishTail (s : State) : State :=
  if tailTakesTwoBlocks s.nbytes then block (padTail2 (block (padTail1 s))) else block (padTail1 s)

/-- FINAL (R166). -/
def execFinal (s : State) : Outcome :=
  if s.phase ≠ .active then .next (raise .protocolFault s)
  else .next (((finishTail s).setPhase .done).respond 0x00)

/-- RDDIG (R167). -/
def execRddig (idx : BitVec 5) (s : State) : Outcome :=
  if s.phase ≠ .done then .next (raise .protocolFault s)
  else .next (s.respond (readDig s.h idx))

/-- RDSTAT (R168), legal in every phase. -/
def execRdstat (s : State) : Outcome := .next (s.respond (statusByte s.err s.phase))

end Sys2Proof.Machine
end

