-- ==== Sys2Proof/Machine/Dispatch.lean ====
section
/-! DEFINITION. One arm for each command: its meaning. -/

namespace Sys2Proof.Machine

def exec (i : Instr) (s : State) : Host.Outcome State Fault Refusal :=
  match i with
  | .nop => Sys2Proof.Machine.execNop s
  | .init => Sys2Proof.Machine.execInit s
  | .absorb byte => Sys2Proof.Machine.execAbsorb byte s
  | .final => Sys2Proof.Machine.execFinal s
  | .rddig idx => Sys2Proof.Machine.execRddig idx s
  | .rdstat => Sys2Proof.Machine.execRdstat s

end Sys2Proof.Machine
end

