-- ==== Sys2Proof/Machine/Events.lean ====
section
/-! DEFINITION. What one event does: `Step(σ, word)` and the reset event (46_commands.md R161). -/

namespace Sys2Proof.Machine

/-- `Step(σ, word)` (R161): decoding comes before everything (R195); a reserved word raises IllegalCommand (R193). -/
def performCommand (w : CmdWord) (s : State) : Outcome :=
  match decode w with
  | .command i => exec i s
  | .illegal _ => .next (raise .illegalCommand s)

/-- An event of the command-level machine (R161). -/
def performEvent (e : Event) (s : State) : Outcome :=
  match e with
  | .command w => performCommand w s
  | .reset d => .next (resetEvent d s)

end Sys2Proof.Machine
end

