-- ==== Sys2Proof/Machine/Step.lean ====
section
/-! DEFINITION. One step: the next event of the command-level machine (46_commands.md R161). -/

namespace Sys2Proof.Machine

/-- One step takes the next event and performs it; with no event to take, the block waits (R220). -/
def step (s : State) : Host.Outcome State Fault Refusal :=
  match takeEvent s with
  | none => .next (awaitEvent s)
  | some (e, s') => performEvent e s'

/-- `s` with the command word that the low `nbits` bits of `w` hold as the very next event (log entry 5). -/
def State.withFetchWord (s : State) (nbits w : Nat) : State :=
  { s with pending := .command (BitVec.ofNat 12 (w % 2 ^ nbits)) :: s.pending }

end Sys2Proof.Machine
end

