-- ==== Sys2Proof/Machine/Reference.lean ====
section
/-! DEFINITION. The source's functions over a whole message, the reference the commands are held against:
Pad (40_padder.md R90 to R92), Blocks (41_block_parser.md R100), the block chain (44_state_accumulator.md R143),
Hash (46_commands.md R160). No command calls them. -/

namespace Sys2Proof.Machine

/-- `z = (55 − n) mod 64`, the least non-negative residue (R6, R91). -/
def padZeros (n : Nat) : Nat := ((55 - (n : Int)) % 64).toNat

/-- `Pad(M)` in bytes (R91) for a message short enough; `none` is LengthOverflow (R92). -/
def pad (m : List Byte) : Option (List Byte) :=
  if m.length ≤ Config.maxBytes then
    some (m ++ [0x80] ++ List.replicate (padZeros m.length) 0x00 ++ toBE64 (BitVec.ofNat 64 (8 * m.length)))
  else none

/-- The bits of a byte, most significant first (R52). -/
def byteBits (b : Byte) : List Bool := (List.range 8).map (fun k => b.getLsbD (7 - k))

/-- The bit string of a byte sequence (R52). -/
def bitString (bs : List Byte) : List Bool := bs.flatMap byteBits

/-- `Pad(M)` as the source states it, on bit strings: a `1` bit, k `0` bits with k the least such that
L + 1 + k ≡ 448 (mod 512), and L in 64 bits (R90). -/
def padBits (m : List Bool) : List Bool :=
  m ++ [true] ++ List.replicate ((447 - (m.length : Int)) % 512).toNat false
    ++ bitString (toBE64 (BitVec.ofNat 64 m.length))

/-- `Blocks(P)[i] = P[64i .. 64i+63]` (R100). -/
def blockAt (p : List Byte) (i : Nat) : Block := Vector.ofFn (fun j => p.getD (64 * i + j.val) 0)

/-- `Blocks(P)` (R100). -/
def blocks (p : List Byte) : List Block := (List.range (p.length / 64)).map (blockAt p)

/-- `S_j` after the given blocks, from `S_0 = H0` (R143). -/
def chain (bs : List Block) : State8 := bs.foldl compressBlock Tables.H0

/-- `Hash(M)` (R160); `none` is LengthOverflow. -/
def hashOf (m : List Byte) : Option (List Byte) := (pad m).map (fun p => digest (chain (blocks p)))

/-- The command sequence `INIT; ABSORB m_0; ...; FINAL` (R169). -/
def hashCommands (m : List Byte) : List Instr := [.init] ++ m.map .absorb ++ [.final]

/-- `RDDIG 0, ..., RDDIG 31`, the pseudo-instruction RDDIGEST (R81). -/
def readCommands : List Instr := (List.range 32).map (fun i => .rddig (BitVec.ofNat 5 i))

end Sys2Proof.Machine
end

