-- ==== Sys2Proof/Machine/Assembler.lean ====
section
/-! DEFINITION. The textual form of commands and the pseudo-instructions (30_encoding.md R80, R81). It is notation of the
spec (D22); no step of the machine uses it. What R80 leaves open of white space, digits and comments: log entry 8. -/

namespace Sys2Proof.Machine

/-- One assembled line. Its operands are in range already: the assembler rejects the others (R80). -/
inductive AsmLine where
  | command (i : Instr)
  | rawWord (w : CmdWord)
  | absorbs (text : List Byte)
  | absorbN (count : Nat) (value : Byte)
  | rddigest
  | hash (text : List Byte)
deriving DecidableEq, Repr

/-- The commands a line other than `.word` stands for (R81). -/
def AsmLine.commands : AsmLine → List Instr
  | .command i      => [i]
  | .rawWord _      => []
  | .absorbs text   => text.map .absorb
  | .absorbN n v    => List.replicate n (.absorb v)
  | .rddigest       => readCommands
  | .hash text      => hashCommands text ++ readCommands

/-- The words a line assembles to (R80, R81). -/
def AsmLine.words : AsmLine → List CmdWord
  | .rawWord w => [w]
  | line       => line.commands.map encode

/-- The words that begin a line. -/
inductive Keyword where
  | bare (i : Instr)
  | absorb | rddig | rawWord | absorbs | absorbN | rddigest | hash
deriving DecidableEq, Repr

/-- The mnemonics, upper case (R80, R81). -/
def keywords : List (List Char × Keyword) :=
  [(['N', 'O', 'P'], .bare .nop), (['I', 'N', 'I', 'T'], .bare .init), (['F', 'I', 'N', 'A', 'L'], .bare .final),
   (['R', 'D', 'S', 'T', 'A', 'T'], .bare .rdstat), (['A', 'B', 'S', 'O', 'R', 'B'], .absorb),
   (['R', 'D', 'D', 'I', 'G'], .rddig), (['.', 'w', 'o', 'r', 'd'], .rawWord),
   (['A', 'B', 'S', 'O', 'R', 'B', 'S'], .absorbs), (['A', 'B', 'S', 'O', 'R', 'B', 'N'], .absorbN),
   (['R', 'D', 'D', 'I', 'G', 'E', 'S', 'T'], .rddigest), (['H', 'A', 'S', 'H'], .hash)]

/-- Printable ASCII (R80, R81). -/
def isPrintable (c : Char) : Bool := 0x20 ≤ c.toNat && c.toNat ≤ 0x7E

/-- The byte of an ASCII character. -/
def charByte (c : Char) : Byte := BitVec.ofNat 8 c.toNat

/-- The value of a digit in base 10 or 16. -/
def digitValue (base : Nat) (c : Char) : Option Nat :=
  let v := if c.isDigit then c.toNat - 0x30
    else if 0x41 ≤ c.toNat && c.toNat ≤ 0x46 then c.toNat - 0x37
    else if 0x61 ≤ c.toNat && c.toNat ≤ 0x66 then c.toNat - 0x57
    else base
  if v < base then some v else none

/-- A number of at least one digit. -/
def readDigits (base : Nat) : List Char → Option Nat
  | [] => none
  | cs => cs.foldlM (fun n c => (digitValue base c).map (fun d => base * n + d)) 0

/-- A hexadecimal operand `0x61` (R80). -/
def readHex : List Char → Option Nat
  | '0' :: 'x' :: cs => readDigits 16 cs
  | _ => none

/-- A decimal or hexadecimal operand (R80). -/
def readNumber (cs : List Char) : Option Nat :=
  match cs with
  | '0' :: 'x' :: _ => readHex cs
  | _ => readDigits 10 cs

/-- A token of a line. -/
inductive Token where
  | word (cs : List Char)
  | quoted (c : Char)
  | text (bs : List Byte)
  | comma
deriving DecidableEq, Repr

/-- Where the reader of a line is. -/
inductive LexMode where
  | between
  | word (cs : List Char)
  | quote
  | quoteEnd (c : Char)
  | text (bs : List Byte)
  | escape (bs : List Byte)
  | hexHigh (bs : List Byte)
  | hexLow (bs : List Byte) (high : Nat)
  | comment
deriving DecidableEq, Repr

/-- The tokens read so far and the mode. -/
abbrev Lexer := List Token × LexMode

/-- A character outside quotes and words: white space, a comma, a quote, a comment, or the start of a word. -/
def lexBetween (ts : List Token) (c : Char) : Option Lexer :=
  if c = ' ' ∨ c = '\t' then some (ts, .between)
  else if c = ';' then some (ts, .comment)
  else if c = ',' then some (ts ++ [.comma], .between)
  else if c.toNat = 0x27 then some (ts, .quote)
  else if c.toNat = 0x22 then some (ts, .text [])
  else some (ts, .word [c])

/-- The byte an escape stands for, other than `\xHH` (R81). -/
def escapeByte (c : Char) : Option Byte :=
  if c = 'n' then some 0x0A else if c.toNat = 0x5C ∨ c.toNat = 0x22 then some (charByte c) else none

/-- One character of a line. -/
def lexChar (l : Lexer) (c : Char) : Option Lexer :=
  match l with
  | (ts, .between) => lexBetween ts c
  | (ts, .word cs) => if c.isAlphanum then some (ts, .word (cs ++ [c])) else lexBetween (ts ++ [.word cs]) c
  | (ts, .quote) => if isPrintable c then some (ts, .quoteEnd c) else none
  | (ts, .quoteEnd q) => if c.toNat = 0x27 then some (ts ++ [.quoted q], .between) else none
  | (ts, .text bs) =>
    if c.toNat = 0x22 then some (ts ++ [.text bs], .between)
    else if c.toNat = 0x5C then some (ts, .escape bs)
    else if isPrintable c then some (ts, .text (bs ++ [charByte c])) else none
  | (ts, .escape bs) =>
    if c = 'x' then some (ts, .hexHigh bs) else (escapeByte c).map (fun b => (ts, .text (bs ++ [b])))
  | (ts, .hexHigh bs) => (digitValue 16 c).map (fun d => (ts, .hexLow bs d))
  | (ts, .hexLow bs h) => (digitValue 16 c).map (fun d => (ts, .text (bs ++ [BitVec.ofNat 8 (16 * h + d)])))
  | (ts, .comment) => some (ts, .comment)

/-- The tokens of a line; an unclosed quote is rejected. -/
def lexLine (line : List Char) : Option (List Token) :=
  match line.foldlM lexChar ([], .between) with
  | some (ts, .word cs) => some (ts ++ [.word cs])
  | some (ts, .between) => some ts
  | some (ts, .comment) => some ts
  | _ => none

/-- A number below `bound`: anything else is rejected rather than emitted as a reserved word (R80). -/
def below (bound : Nat) (n : Option Nat) : Option Nat := n.filter (fun k => k < bound)

/-- The line after its keyword. -/
def parseOperands (k : Keyword) (ts : List Token) : Option AsmLine :=
  match k, ts with
  | .bare i, [] => some (.command i)
  | .absorb, [.word cs] => (below 256 (readNumber cs)).map (fun n => .command (.absorb (BitVec.ofNat 8 n)))
  | .absorb, [.quoted c] => some (.command (.absorb (charByte c)))
  | .rddig, [.word cs] => (below 32 (readNumber cs)).map (fun n => .command (.rddig (BitVec.ofNat 5 n)))
  | .rawWord, [.word cs] => (below 4096 (readHex cs)).map (fun n => .rawWord (BitVec.ofNat 12 n))
  | .absorbs, [.text bs] => some (.absorbs bs)
  | .absorbN, [.word n, .comma, .word v] =>
    (readNumber n).bind (fun n => (below 256 (readNumber v)).map (fun v => .absorbN n (BitVec.ofNat 8 v)))
  | .rddigest, [] => some .rddigest
  | .hash, [.text bs] => some (.hash bs)
  | _, _ => none

/-- A line: nothing, or a keyword and its operands (R80). -/
def parseLine (line : List Char) : Option (List AsmLine) :=
  match lexLine line with
  | some [] => some []
  | some (.word cs :: ts) =>
    (keywords.lookup cs).bind (fun k => (parseOperands k ts).map (fun l => [l]))
  | _ => none

/-- A program text, one command per line (R80), to command words; `none` when a line is rejected. -/
def assemble (source : List Char) : Option (List CmdWord) :=
  ((source.splitOn '\n').mapM parseLine).map (fun ls => ls.flatten.flatMap AsmLine.words)

end Sys2Proof.Machine
end

