-- ==== Sys2Proof/Machine/Port.lean ====
section
/-! DEFINITION. The port, clock edge by clock edge, round the command-level machine (30_encoding.md R82,
70_reset_and_hazards.md R220, R221, R223, R226, R227). R82 makes the command level the architectural model; this layer
says what "accepted" and "in order" mean. -/

namespace Sys2Proof.Machine

/-- The input pins as sampled at one rising edge of clk (R82), and the contents a reset at this edge would leave (R220). -/
structure Pins where
  rst       : Bool
  cmdValid  : Bool
  cmd       : CmdWord
  resetData : ResetData
deriving DecidableEq, Repr

/-- What the sequencer is doing in the cycle after an edge. -/
inductive Sequencer where
  /-- cmd_ready = 1. -/
  | ready
  /-- A command is being performed; `left` more edges before its response. cmd_ready = 0. -/
  | working (left : Nat) (rsp : Response)
  /-- The cycle in which rsp_valid = 1; cmd_ready is still 0 (DEDUCED, log entry 7). -/
  | responding (rsp : Response)
deriving DecidableEq, Repr

/-- The command-level machine and its port. -/
structure PortState where
  core      : State
  seq       : Sequencer
  /-- How many commands have been accepted: the argument that makes LATENCY a fresh value for each (log entry 6). -/
  accepted  : Nat
deriving DecidableEq, Repr

/-- The output cmd_ready (R82). -/
def PortState.cmdReady (p : PortState) : Bool := p.seq = .ready

/-- The outputs rsp_valid and rsp (R82): `none` is rsp_valid = 0. -/
def PortState.rspOut (p : PortState) : Option Response :=
  match p.seq with
  | .responding r => some r
  | _ => none

/-- The response comes now, or after `left + 1` more edges. -/
def Sequencer.after : Nat → Response → Sequencer
  | 0, r => .responding r
  | n + 1, r => .working n r

/-- Reset at an edge (R220): whatever the block was doing, its command gives no response (R221). -/
def PortState.reset (d : ResetData) (p : PortState) : PortState :=
  { core := resetEvent d p.core, seq := .ready, accepted := p.accepted }

/-- A command is accepted (R82): its effect is atomic (R58), and its response comes LATENCY cycles later (R226). -/
def PortState.accept (w : CmdWord) (p : PortState) : Host.Outcome PortState Fault Refusal :=
  match performCommand w p.core with
  | .next t =>
    .next { core := t, seq := Sequencer.after (Config.latencyBeyondOne w p.core p.accepted) (t.rsp.getD 0),
            accepted := p.accepted + 1 }
  | .fault f => .fault f
  | .refused r => .refused r

/-- One rising edge of clk (R82): reset first; a word is accepted when cmd_valid = 1 and cmd_ready = 1, and only then. -/
def portEdge (i : Pins) (p : PortState) : Host.Outcome PortState Fault Refusal :=
  if i.rst then .next (p.reset i.resetData)
  else
    match p.seq with
    | .ready => if i.cmdValid then p.accept i.cmd else .next p
    | .working n r => .next { p with seq := Sequencer.after n r }
    | .responding _ => .next { p with seq := .ready }

/-- The edge accepts a command (R82). -/
def accepts (i : Pins) (p : PortState) : Bool := !i.rst && i.cmdValid && p.cmdReady

/-- The edges' command words that were accepted, the responses seen, and the port state at the end. -/
def portRun : List Pins → PortState → Option (List CmdWord × List Response × PortState)
  | [], p => some ([], [], p)
  | i :: is, p =>
    match portEdge i p with
    | .next q =>
      (portRun is q).map (fun (ws, rs, last) =>
        ((if accepts i p then [i.cmd] else []) ++ ws, q.rspOut.toList ++ rs, last))
    | _ => none

/-- The response a sequencer still owes. -/
def Sequencer.owed : Sequencer → List Response
  | .working _ r => [r]
  | _ => []

/-- The command level's own answer to a list of words: the responses, one for each, and the state after (R161). -/
def commandRun : List CmdWord → State → Option (List Response × State)
  | [], s => some ([], s)
  | w :: ws, s =>
    match performCommand w s with
    | .next t => (commandRun ws t).map (fun (rs, last) => (t.rsp.toList ++ rs, last))
    | _ => none

end Sys2Proof.Machine
end

