-- ==== Sys2Proof/Safety.lean ====
section
/-! DEFINITION. The terms claims about runs are stated in: the invariant of the state, runs through `step` that collect the
responses, and which parts of two states a response can depend on. -/

namespace Sys2Proof.Machine

/-- The invariant: BUF is in its canonical form with indices 0..63 only (R50), and ERR = NONE if and only if
PHASE is not ERROR (R28). -/
abbrev State.Inv (s : State) : Prop := Memory.wf s.buf = true ∧ (s.err = .none ↔ s.phase ≠ .error)

/-- The data registers of the command-level state are as before: H, NBYTES, and every byte of BUF. The scratch registers
are left out on purpose: nothing may be stated about them between commands (93_implementation_defined.md U10). -/
def KeepsData (s t : State) : Prop :=
  t.h = s.h ∧ t.nbytes = s.nbytes ∧ ∀ a, Memory.read t.buf a = Memory.read s.buf a

/-- PHASE and ERR are as before. -/
def KeepsControl (s t : State) : Prop := t.phase = s.phase ∧ t.err = s.err

/-- From `s` to `t` a fault with code `c` was taken (R196): ERROR with the first fault's code, no data register changed, and
the response 1 ‖ zext_8(ERR) with ERR as it stands afterwards. -/
def TakesFault (c : ErrCode) (s t : State) : Prop :=
  t.phase = .error ∧ t.err = (if s.phase = .error then s.err else c) ∧ KeepsData s t ∧
    t.rsp = some (faultResponse t.err)

/-- R162's table: the phases in which a command is performed and not refused for its phase. -/
def legalIn : Instr → Phase → Bool
  | .nop, _          => true
  | .init, _         => true
  | .rdstat, _       => true
  | .absorb _, .active => true
  | .final, .active  => true
  | .rddig _, .done  => true
  | .absorb _, _     => false
  | .final, _        => false
  | .rddig _, _      => false

/-- Commands that may stand anywhere in a sequence without changing its result (R169). -/
def isNeutral : Instr → Bool
  | .nop    => true
  | .rdstat => true
  | _       => false

/-- `k` steps: the responses given, in order, and the state after; `none` if a step stops. -/
def observe : Nat → State → Option (List Response × State)
  | 0, s => some ([], s)
  | k + 1, s =>
    match step s with
    | .next t => (observe k t).map (fun (rs, last) => (t.rsp.toList ++ rs, last))
    | _ => none

/-- The host presents these commands next. -/
def State.presenting (s : State) (is : List Instr) : State :=
  s.setPending (is.map (fun i => .command (encode i)) ++ s.pending)

/-- What the host chooses in an event: the command word, or that it is a reset. RESET_DATA is not the host's choice. -/
def Event.choice : Event → Option CmdWord
  | .command w => some w
  | .reset _ => none

end Sys2Proof.Machine
end

