-- ==== Sys2Proof/Certificates/Slice0/Obligations.lean ====
section
/-! DEFINITION. The statements for the provers. Each docstring names the rule of spec/ it formalises. The scratch registers
a..h and W are mentioned only inside the component operations that write them: nothing may be stated about what they hold
between commands (93_implementation_defined.md U10).

Where a docstring says "the spec's inference", the spec itself marks that sentence `[derived: ...]`; where it says "general
knowledge", the spec marks it so (93_implementation_defined.md GK1 to GK3). Such a clause is no rule of the spec. -/

open Sys2Proof Sys2Proof.Machine

/-! ## Primitives -/

/-- R8: `add32` is the sum modulo 2^32; sums of more than two words do not depend on their order (the spec's inference:
"because addition modulo 2^32 is associative and commutative, the order of the additions does not matter"). -/
def Obligations.AddIsSumModulo : Prop :=
  (∀ x y : Word, (add32 x y).toNat = (x.toNat + y.toNat) % 2 ^ 32) ∧
  (∀ x y z : Word, add32 (add32 x y) z = add32 x (add32 y z) ∧ add32 x y = add32 y x) ∧
  add32 0xFFFFFFFF 1 = 0 ∧ add32 0x80000000 0x80000000 = 0

/-- R9: `rotr` as the rule's formula, and bit i of the result is bit (i + n) mod 32 of x. -/
def Obligations.RotateRightMovesBits : Prop :=
  (∀ (x : Word) (n : Nat), 0 < n → n < 32 →
    (rotr x n).toNat = (x.toNat >>> n) ||| ((x.toNat <<< (32 - n)) % 2 ^ 32) ∧
    ∀ i, i < 32 → (rotr x n).getLsbD i = x.getLsbD ((i + n) % 32)) ∧
  rotr 1 1 = 0x80000000 ∧ rotr 0x80000000 31 = 1 ∧
  ∀ n, 0 < n → n < 32 → rotr 0 n = 0 ∧ rotr 0xFFFFFFFF n = 0xFFFFFFFF

/-- R10: `shr` is the floor of the division by 2^n, and the top n bits of the result are 0. -/
def Obligations.ShiftRightDivides : Prop :=
  (∀ (x : Word) (n : Nat), 0 < n → n < 32 →
    (shr x n).toNat = x.toNat / 2 ^ n ∧ ∀ i, 32 - n ≤ i → (shr x n).getLsbD i = false) ∧
  shr 0xFFFFFFFF 3 = 0x1FFFFFFF ∧ shr 0x80000000 10 = 0x00200000 ∧ shr 7 3 = 0

/-- R12: `BE32` and `ToBE32` by their formulas, each the inverse of the other (the spec's inference "from the
definitions"). -/
def Obligations.BigEndianWordRoundTrip : Prop :=
  (∀ b0 b1 b2 b3 : Byte,
    (be32 b0 b1 b2 b3).toNat = b0.toNat * 2 ^ 24 + b1.toNat * 2 ^ 16 + b2.toNat * 2 ^ 8 + b3.toNat ∧
    toBE32 (be32 b0 b1 b2 b3) = [b0, b1, b2, b3]) ∧
  ∀ w : Word,
    toBE32 w = [w.extractLsb' 24 8, w.extractLsb' 16 8, w.extractLsb' 8 8, w.extractLsb' 0 8] ∧
    be32 (w.extractLsb' 24 8) (w.extractLsb' 16 8) (w.extractLsb' 8 8) (w.extractLsb' 0 8) = w

/-- R13: `ToBE64`, most significant byte first; and the bit length it is applied to is 8·NBYTES exactly (R26, the
spec's inference: "fits a u64 exactly because NBYTES < 2^61"). -/
def Obligations.LengthFieldIsBigEndianBitLength : Prop :=
  (∀ v : U64, toBE64 v =
    [v.extractLsb' 56 8, v.extractLsb' 48 8, v.extractLsb' 40 8, v.extractLsb' 32 8,
     v.extractLsb' 24 8, v.extractLsb' 16 8, v.extractLsb' 8 8, v.extractLsb' 0 8]) ∧
  ∀ n : U61, (bitLength n).toNat = 8 * n.toNat ∧ lengthField n = toBE64 (BitVec.ofNat 64 (8 * n.toNat))

/-- R111 and R112: the scheduler's mix functions bit by bit (the third term is a shift), their linearity over XOR (the
spec's inference: "rotates and shifts are bit permutations with zero fill"), and the rules' corner cases and examples.
-/
def Obligations.ScheduleMixFunctions : Prop :=
  (∀ (x : Word) (i : Nat), i < 32 →
    (ssig0 x).getLsbD i =
      ((x.getLsbD ((i + 7) % 32) ^^ x.getLsbD ((i + 18) % 32)) ^^ x.getLsbD (i + 3)) ∧
    (ssig1 x).getLsbD i =
      ((x.getLsbD ((i + 17) % 32) ^^ x.getLsbD ((i + 19) % 32)) ^^ x.getLsbD (i + 10))) ∧
  (∀ x y : Word, ssig0 (x ^^^ y) = ssig0 x ^^^ ssig0 y ∧ ssig1 (x ^^^ y) = ssig1 x ^^^ ssig1 y) ∧
  (ssig0 0 = 0 ∧ ssig0 0xFFFFFFFF = 0x1FFFFFFF ∧ ssig0 1 = 0x02004000 ∧ ssig0 0x80000000 = 0x11002000 ∧
    ssig0 0x12345678 = 0xE7FCE6EE) ∧
  (ssig1 0 = 0 ∧ ssig1 0xFFFFFFFF = 0x003FFFFF ∧ ssig1 1 = 0x0000A000 ∧ ssig1 0x80000000 = 0x00205000 ∧
    ssig1 0x12345678 = 0xA1F78649)

/-- R121 and R122: the Compressor's mix functions bit by bit (all terms are rotates), their linearity over XOR (the
spec's inference, as for the scheduler's), and the rules' corner cases and examples. -/
def Obligations.RoundMixFunctions : Prop :=
  (∀ (x : Word) (i : Nat), i < 32 →
    (bsig0 x).getLsbD i =
      ((x.getLsbD ((i + 2) % 32) ^^ x.getLsbD ((i + 13) % 32)) ^^ x.getLsbD ((i + 22) % 32)) ∧
    (bsig1 x).getLsbD i =
      ((x.getLsbD ((i + 6) % 32) ^^ x.getLsbD ((i + 11) % 32)) ^^ x.getLsbD ((i + 25) % 32))) ∧
  (∀ x y : Word, bsig0 (x ^^^ y) = bsig0 x ^^^ bsig0 y ∧ bsig1 (x ^^^ y) = bsig1 x ^^^ bsig1 y) ∧
  (bsig0 0 = 0 ∧ bsig0 0xFFFFFFFF = 0xFFFFFFFF ∧ bsig0 1 = 0x40080400 ∧ bsig0 0x80000000 = 0x20040200 ∧
    bsig0 0x12345678 = 0x66146474 ∧ bsig0 0x6A09E667 = 0xCE20B47E) ∧
  (bsig1 0 = 0 ∧ bsig1 0xFFFFFFFF = 0xFFFFFFFF ∧ bsig1 1 = 0x04200080 ∧ bsig1 0x80000000 = 0x02100040 ∧
    bsig1 0x12345678 = 0x3561ABDA ∧ bsig1 0x510E527F = 0x3587272B)

/-- R123: `Ch` selects bit i of f where bit i of e is 1 and bit i of g where it is 0; XOR here equals OR (the spec's
inference: "the two AND terms never have a 1 in the same position"); its corner cases, and that the operand order
matters. -/
def Obligations.ChooseSelectsBits : Prop :=
  (∀ e f g : Word, ch e f g = (e &&& f) ^^^ (~~~e &&& g) ∧ ch e f g = (e &&& f) ||| (~~~e &&& g) ∧
    ∀ i, i < 32 → (ch e f g).getLsbD i = if e.getLsbD i then f.getLsbD i else g.getLsbD i) ∧
  (∀ e f g : Word, ch 0 f g = g ∧ ch 0xFFFFFFFF f g = f ∧ ch e f f = f) ∧
  ch 0xFFFF0000 0x12345678 0x9ABCDEF0 = 0x1234DEF0 ∧ ch 0x510E527F 0x9B05688C 0x1F83D9AB = 0x1F85C98C ∧
  ∃ e f g : Word, ch e f g ≠ ch f e g

/-- R124: bit i of `Maj` is 1 exactly when at least two of the operands have it set (the spec's inference, by
"truth table"); symmetry and corner cases. -/
def Obligations.MajorityOfBits : Prop :=
  (∀ a b c : Word, maj a b c = (a &&& b) ^^^ (a &&& c) ^^^ (b &&& c) ∧
    ∀ i, i < 32 → ((maj a b c).getLsbD i = true ↔
      2 ≤ (a.getLsbD i).toNat + (b.getLsbD i).toNat + (c.getLsbD i).toNat)) ∧
  (∀ a b c : Word, maj a b c = maj b a c ∧ maj a b c = maj a c b) ∧
  (∀ x y : Word, maj x x y = x ∧ maj 0 x y = x &&& y ∧ maj 0xFFFFFFFF x y = x ||| y) ∧
  maj 0 0x12345678 0x9ABCDEF0 = 0x12345670 ∧ maj 0xFFFFFFFF 0x12345678 0x9ABCDEF0 = 0x9ABCDEF8 ∧
  maj 0x6A09E667 0xBB67AE85 0x3C6EF372 = 0x3A6FE667

/-! ## Encoding -/

/-- R77: `Encode` by its table, and decode and encode agree both ways: `Decode(Encode(c)) = c`, and
`Encode(Decode(w)) = w` whenever `Decode(w)` is not Illegal (the spec's inference "from rule R73"). -/
def Obligations.DecodeAndEncodeAgree : Prop :=
  (∀ i : Instr, decode (encode i) = .command i) ∧
  (∀ (w : CmdWord) (i : Instr), decode w = .command i → encode i = w) ∧
  encode .nop = 0x000 ∧ encode .init = 0x100 ∧ encode .final = 0x300 ∧ encode .rdstat = 0x500 ∧
  (∀ b : Byte, (encode (.absorb b)).toNat = 0x200 + b.toNat) ∧
  ∀ x : BitVec 5, (encode (.rddig x)).toNat = 0x400 + x.toNat

/-- R73: a word decodes to a command exactly when it matches a row of the table, and then to that row's command; no word
matches two rows (the spec's inference: "the OP fields differ"). -/
def Obligations.DecodeFollowsOpcodeTable : Prop :=
  (∀ w : CmdWord, CmdWord.wellFormed w = true ↔ ∃ i, decode w = .command i) ∧
  (∀ (w : CmdWord) (i : Instr), decode w = .command i → i.row.selects w = true ∧ i.row ∈ opcodeTable) ∧
  (∀ (w : CmdWord) (r q : OpcodeRow), r ∈ opcodeTable → q ∈ opcodeTable →
    r.selects w = true → q.selects w = true → r = q)

/-- R75: the reserved words are those with OP = 0x6 .. 0xF; those with OP = 0x0, 0x1, 0x3, 0x5 and ARG ≠ 0x00; and those
with OP = 0x4 and ARG ≥ 0x20. There are 3804 of them and 292 commands. -/
def Obligations.ReservedWordsAreIllegal : Prop :=
  (∀ w : CmdWord, (∃ why, decode w = .illegal why) ↔
    6 ≤ w.toNat / 256 ∨
    ((w.toNat / 256 = 0 ∨ w.toNat / 256 = 1 ∨ w.toNat / 256 = 3 ∨ w.toNat / 256 = 5) ∧ w.toNat % 256 ≠ 0) ∨
    (w.toNat / 256 = 4 ∧ 0x20 ≤ w.toNat % 256)) ∧
  ((List.range 4096).filter (fun n => CmdWord.wellFormed (BitVec.ofNat 12 n))).length = 292 ∧
  ((List.range 4096).filter (fun n => !CmdWord.wellFormed (BitVec.ofNat 12 n))).length = 3804

/-- R73 on words written out: OP, then ARG. -/
def Obligations.SpecWordsDecode : Prop :=
  decode 0b0000_00000000#12 = .command .nop ∧ decode 0b0001_00000000#12 = .command .init ∧
  decode 0b0010_11111111#12 = .command (.absorb 0xFF) ∧ decode 0b0011_00000000#12 = .command .final ∧
  decode 0b0100_00011111#12 = .command (.rddig 31) ∧ decode 0b0101_00000000#12 = .command .rdstat

/-- R78: the response word, FAULT in bit 8 and DATA in bits 7..0; a fault's DATA is `zext_8(ERR)`, 0x01, 0x02 or 0x03. -/
def Obligations.ResponseWordLayout : Prop :=
  (∀ d : Byte, (okResponse d).getLsbD 8 = false ∧ (okResponse d).extractLsb' 0 8 = d) ∧
  faultResponse .lengthOverflow = 0x101 ∧ faultResponse .protocol = 0x102 ∧ faultResponse .illegalCmd = 0x103

/-! ## Reset, events and the step -/

/-- R27, R28, R29, R220: after reset PHASE = IDLE, ERR = NONE, STATUS = 0x00, and rsp_valid = 0. Nothing is said of the
data registers, whose contents in `State.reset` are the model's choice (log entries 1 and 3). -/
def Obligations.ResetStateIsIdle : Prop :=
  State.reset.phase = .idle ∧ State.reset.err = .none ∧ statusByte State.reset.err State.reset.phase = 0x00 ∧
  State.reset.rsp = none

/-- R220: a reset event, whatever the state, leaves PHASE = IDLE, ERR = NONE, no response, and the data registers at the
contents the event carries; those contents are any values (log entry 2). -/
def Obligations.ResetEventFromAnyState : Prop :=
  ∀ (s : State) (d : ResetData) (es : List Event), s.pending = .reset d :: es →
    ∃ t, step s = .next t ∧ t.phase = .idle ∧ t.err = .none ∧ t.rsp = none ∧ t.pending = es ∧
      t.h = d.h ∧ t.nbytes = d.nbytes ∧ ∀ i (hi : i < 64), Memory.read t.buf i = d.buf[i]

/-- R161: a step runs the decoded command: when the next event is a word that decodes to `i`, the step is `exec i` on the
state without that event. -/
def Obligations.StepRunsDecodedCommand : Prop :=
  ∀ (s : State) (w : CmdWord) (es : List Event) (i : Instr),
    s.pending = .command w :: es → decode w = .command i → step s = exec i (s.setPending es)

/-- R193: a reserved word, in every phase, raises IllegalCommand: fault entry and nothing else. -/
def Obligations.ReservedWordRaisesIllegalCommand : Prop :=
  ∀ (s : State) (w : CmdWord) (es : List Event) (why : Reserved),
    s.pending = .command w :: es → decode w = .illegal why →
    ∃ t, step s = .next t ∧ TakesFault .illegalCmd s t ∧ t.pending = es

/-- With no event the block waits: only rsp_valid goes down (R82, R220). That waiting is a step is the model's choice (log
entry 5). -/
def Obligations.BlockWaitsWithoutEvent : Prop :=
  ∀ s : State, s.pending = [] →
    ∃ t, step s = .next t ∧ KeepsControl s t ∧ KeepsData s t ∧ t.rsp = none ∧ t.pending = []

/-- `withFetchWord` makes a word of the opcode table the next event, so that the next step performs it (log entry 5). -/
def Obligations.FetchWordIsNextCommand : Prop :=
  ∀ (s : State) (nbits w : Nat) (i : Instr), decodeTableWord nbits w = some i →
    step (s.withFetchWord nbits w) = exec i s

/-- R161: `Step` is total: from every state the step answers a next state. -/
def Obligations.EveryStepHasANextState : Prop := ∀ s : State, ∃ t, step s = .next t

/-! ## The commands -/

/-- R163: NOP, in every phase, changes nothing and answers 0x000; 0x000 is its only word. -/
def Obligations.NopDoesNothing : Prop :=
  (∀ s : State, ∃ t, exec .nop s = .next t ∧ KeepsControl s t ∧ KeepsData s t ∧ t.rsp = some 0x000) ∧
  ∀ w : CmdWord, decode w = .command .nop ↔ w = 0x000

/-- R164: INIT, in every phase, seeds H with the table H0, clears NBYTES and ERR, enters ACTIVE, leaves BUF as it
is, and answers 0x000; a second INIT changes nothing more, and RDSTAT then answers 0x001. -/
def Obligations.InitBeginsComputation : Prop :=
  ∀ s : State, ∃ t, exec .init s = .next t ∧
    t.h = Tables.H0 ∧
    t.nbytes = 0 ∧ t.err = .none ∧ t.phase = .active ∧ t.rsp = some 0x000 ∧
    (∀ a, Memory.read t.buf a = Memory.read s.buf a) ∧
    exec .init t = .next t ∧ ∃ u, exec .rdstat t = .next u ∧ u.rsp = some 0x001

/-- R165: ABSORB, for every byte and every state whose BUF is in canonical form. Outside ACTIVE it raises ProtocolFault.
In ACTIVE with NBYTES = 2^61 − 1 it raises LengthOverflow. Otherwise it stores the byte at BUF[NBYTES mod 64] and
nowhere else, counts it, and when the counter comes to a multiple of 64 replaces H by the compression of the block now
in BUF. -/
def Obligations.AbsorbStoresCountsAndCompresses : Prop :=
  ∀ (b : Byte) (s : State), Memory.wf s.buf = true →
    (s.phase ≠ .active → ∃ t, exec (.absorb b) s = .next t ∧ TakesFault .protocol s t) ∧
    (s.phase = .active → s.nbytes.toNat = 2 ^ 61 - 1 →
      ∃ t, exec (.absorb b) s = .next t ∧ TakesFault .lengthOverflow s t) ∧
    (s.phase = .active → s.nbytes.toNat ≠ 2 ^ 61 - 1 →
      ∃ t, exec (.absorb b) s = .next t ∧ KeepsControl s t ∧ t.rsp = some 0x000 ∧
        t.nbytes.toNat = s.nbytes.toNat + 1 ∧
        (∀ a, Memory.read t.buf a = if a = s.nbytes.toNat % 64 then b else Memory.read s.buf a) ∧
        t.h = if (s.nbytes.toNat + 1) % 64 = 0 then compressBlock s.h (Memory.block t.buf) else s.h)

/-- R166: FINAL. Outside ACTIVE it raises ProtocolFault. In ACTIVE it fills and compresses the first tail block and, when
NBYTES mod 64 ≥ 56, a second; PHASE becomes DONE, and NBYTES and ERR do not change. What the tail blocks hold is
`FirstTailBlockIsPadded` and `SecondTailBlockIsZerosAndLength`. -/
def Obligations.FinalCompressesTail : Prop :=
  ∀ s : State,
    (s.phase ≠ .active → ∃ t, exec .final s = .next t ∧ TakesFault .protocol s t) ∧
    (s.phase = .active → ∃ t, exec .final s = .next t ∧ t.phase = .done ∧ t.err = s.err ∧ t.rsp = some 0x000 ∧
      t.nbytes = s.nbytes ∧
      (s.nbytes.toNat % 64 ≤ 55 →
        t.h = compressBlock s.h (Memory.block (padTail1Buf s.nbytes s.buf)) ∧
        ∀ a, Memory.read t.buf a = Memory.read (padTail1Buf s.nbytes s.buf) a) ∧
      (56 ≤ s.nbytes.toNat % 64 →
        t.h = compressBlock (compressBlock s.h (Memory.block (padTail1Buf s.nbytes s.buf)))
          (Memory.block (padTail2Buf s.nbytes (padTail1Buf s.nbytes s.buf))) ∧
        ∀ a, Memory.read t.buf a = Memory.read (padTail2Buf s.nbytes (padTail1Buf s.nbytes s.buf)) a))

/-- R167: RDDIG. Outside DONE it raises ProtocolFault. In DONE it answers byte idx of Digest(H), for each of the 32
indices, and changes nothing. -/
def Obligations.RddigAnswersDigestByte : Prop :=
  ∀ (x : BitVec 5) (s : State),
    (s.phase ≠ .done → ∃ t, exec (.rddig x) s = .next t ∧ TakesFault .protocol s t) ∧
    (s.phase = .done → ∃ t b, exec (.rddig x) s = .next t ∧ KeepsControl s t ∧ KeepsData s t ∧
      (digest s.h)[x.toNat]? = some b ∧ t.rsp = some (0#1 ++ b))

/-- R168, with the codes of R27, R28 and R29: RDSTAT, in every phase, answers STATUS and changes nothing. Bits 1..0 of the
response are PHASE (IDLE 0, ACTIVE 1, DONE 2, ERROR 3), bits 3..2 are ERR (NONE 0, LENGTH_OVERFLOW 1, PROTOCOL 2,
ILLEGAL_CMD 3), bits 7..4 and FAULT are 0. Where the invariant of R28 holds (the spec's inference) the response is the
rule's for the phase and, in ERROR, for the code. -/
def Obligations.RdstatAnswersStatus : Prop :=
  ∀ s : State, ∃ t r, exec .rdstat s = .next t ∧ KeepsControl s t ∧ KeepsData s t ∧ t.rsp = some r ∧
    r.extractLsb' 0 2 = (match s.phase with | .idle => 0 | .active => 1 | .done => 2 | .error => 3) ∧
    r.extractLsb' 2 2 = (match s.err with | .none => 0 | .lengthOverflow => 1 | .protocol => 2 | .illegalCmd => 3) ∧
    r.extractLsb' 4 5 = 0 ∧
    (s.Inv →
      (s.phase = .idle → r = 0x000) ∧ (s.phase = .active → r = 0x001) ∧ (s.phase = .done → r = 0x002) ∧
      (s.phase = .error →
        (s.err = .lengthOverflow ∧ r = 0x007) ∨ (s.err = .protocol ∧ r = 0x00B) ∨ (s.err = .illegalCmd ∧ r = 0x00F)))

/-- R162, R161 and R78: every command in every state is accepted and gives exactly one response, whose FAULT bit is 0
exactly when R162's table allows the command in the phase and it is not an ABSORB with the counter full; the new phase
is the table's. -/
def Obligations.LegalityTableDecidesResponse : Prop :=
  ∀ (i : Instr) (s : State), ∃ t r, exec i s = .next t ∧ t.rsp = some r ∧
    (r.getLsbD 8 = false ↔
      legalIn i s.phase = true ∧ ¬((∃ b, i = .absorb b) ∧ s.nbytes.toNat = 2 ^ 61 - 1)) ∧
    (r.getLsbD 8 = true → t.phase = .error) ∧
    (r.getLsbD 8 = false → t.phase = if i = .init then .active else if i = .final then .done else s.phase)

/-- R195: precedence of faults. A reserved word raises IllegalCommand also in a phase where its OP's command is illegal;
an ABSORB outside ACTIVE raises ProtocolFault also when the counter is full. From a phase other than ERROR the code
recorded says which was raised. -/
def Obligations.FaultPrecedence : Prop :=
  (∀ (s : State) (w : CmdWord) (why : Reserved), s.phase ≠ .error → decode w = .illegal why →
    ∃ t, performCommand w s = .next t ∧ t.phase = .error ∧ t.err = .illegalCmd ∧ t.rsp = some 0x103) ∧
  (∀ (s : State) (b : Byte), s.phase ≠ .error → s.phase ≠ .active → s.nbytes.toNat = 2 ^ 61 - 1 →
    ∃ t, performCommand (encode (.absorb b)) s = .next t ∧ t.phase = .error ∧ t.err = .protocol ∧
      t.rsp = some 0x102)

/-- R199: in phase ERROR a word that faults is refused and changes no state; the response carries the first fault's
code. -/
def Obligations.FirstFaultSticks : Prop :=
  ∀ (s t : State) (w : CmdWord) (r : Response), s.phase = .error → performCommand w s = .next t →
    t.rsp = some r → r.getLsbD 8 = true →
    KeepsControl s t ∧ KeepsData s t ∧ r = faultResponse s.err

/-! ## Whole-machine rules -/

/-- R198: phase ERROR is left only by INIT, to ACTIVE with ERR = NONE, or by reset, to IDLE. -/
def Obligations.ErrorLeftOnlyByInitOrReset : Prop :=
  ∀ s t : State, s.phase = .error → step s = .next t → t.phase ≠ .error →
    (∃ es, s.pending = .command 0x100 :: es ∧ t.phase = .active ∧ t.err = .none) ∨
    (∃ d es, s.pending = .reset d :: es ∧ t.phase = .idle ∧ t.err = .none)

/-- R173: the phase graph. A step that changes PHASE is a reset to IDLE, an INIT to ACTIVE, a FINAL from ACTIVE to DONE,
or a fault to ERROR (the spec's inference "from rule R162"). -/
def Obligations.PhaseGraph : Prop :=
  ∀ s t : State, step s = .next t → t.phase ≠ s.phase →
    ((∃ d es, s.pending = .reset d :: es) ∧ t.phase = .idle) ∨
    ((∃ es, s.pending = .command 0x100 :: es) ∧ t.phase = .active) ∨
    ((∃ es, s.pending = .command 0x300 :: es) ∧ s.phase = .active ∧ t.phase = .done) ∨
    ((∃ r, t.rsp = some r ∧ r.getLsbD 8 = true) ∧ t.phase = .error)

/-- The invariant holds after reset. That BUF then lists nothing is the model's choice (log entry 3). -/
def Obligations.ResetStateMeetsInvariant : Prop := State.reset.Inv

/-- Every step keeps the invariant: BUF in the model's canonical form with indices 0..63 only (R50; the form is the
model's, log entry 3), and ERR = NONE if and only if PHASE ≠ ERROR (R28, the spec's inference). -/
def Obligations.StepKeepsInvariant : Prop := ∀ s t : State, s.Inv → step s = .next t → t.Inv

/-- R196, R78: a response with FAULT = 1 leaves the machine in ERROR with a code in ERR, and carries that code. -/
def Obligations.FaultResponseReportsErr : Prop :=
  ∀ (s t : State) (r : Response), s.Inv → step s = .next t → t.rsp = some r → r.getLsbD 8 = true →
    t.phase = .error ∧ t.err ≠ .none ∧ r = faultResponse t.err

/-- R26: NBYTES is cleared by INIT, counted up by one by an ABSORB that is performed, and written by nothing else; it
never wraps. -/
def Obligations.ByteCounterNeverWraps : Prop :=
  ∀ (i : Instr) (s t : State), exec i s = .next t →
    (i = .init → t.nbytes = 0) ∧
    ((∃ b, i = .absorb b) → s.phase = .active → s.nbytes.toNat ≠ 2 ^ 61 - 1 → t.nbytes.toNat = s.nbytes.toNat + 1) ∧
    ((∃ b, i = .absorb b) → (s.phase ≠ .active ∨ s.nbytes.toNat = 2 ^ 61 - 1) → t.nbytes = s.nbytes) ∧
    (i ≠ .init → (∀ b, i ≠ .absorb b) → t.nbytes = s.nbytes)

/-- R21: H is written only by INIT and by the BLOCK of an ABSORB that fills the buffer or of a FINAL in ACTIVE. -/
def Obligations.HashValueWrittenOnlyByInitAndBlock : Prop :=
  ∀ (i : Instr) (s t : State), exec i s = .next t → t.h ≠ s.h →
    i = .init ∨ (i = .final ∧ s.phase = .active) ∨
    ((∃ b, i = .absorb b) ∧ s.phase = .active ∧ s.nbytes.toNat % 64 = 63)

/-- R25: BUF is written only by ABSORB, at index NBYTES mod 64, and by FINAL; no other command changes a byte of it, and
no command that raises a fault does. -/
def Obligations.BufferWrittenOnlyByAbsorbAndFinal : Prop :=
  ∀ (i : Instr) (s t : State), Memory.wf s.buf = true → exec i s = .next t →
    (i = .final ∨ (∃ b, i = .absorb b) → s.phase ≠ .active → ∀ a, Memory.read t.buf a = Memory.read s.buf a) ∧
    ((∃ b, i = .absorb b) → s.nbytes.toNat = 2 ^ 61 - 1 → ∀ a, Memory.read t.buf a = Memory.read s.buf a) ∧
    ((∃ b, i = .absorb b) → ∀ a, a ≠ s.nbytes.toNat % 64 → Memory.read t.buf a = Memory.read s.buf a) ∧
    (i ≠ .final → (∀ b, i ≠ .absorb b) → ∀ a, Memory.read t.buf a = Memory.read s.buf a)

/-- No command changes the events still to come: the host alone originates them (R161). The list is the model's own field
(log entry 5). -/
def Obligations.CommandsLeaveEventsAlone : Prop :=
  ∀ (i : Instr) (s t : State), exec i s = .next t → t.pending = s.pending

/-- R34, R54: outside DONE no response depends on H: two states that differ in H alone answer every word alike, and are
in the same phase afterwards. -/
def Obligations.HashValueHiddenOutsideDone : Prop :=
  ∀ (s : State) (h : State8) (w : CmdWord), s.phase ≠ .done →
    ∃ t u, performCommand w s = .next t ∧ performCommand w (s.setH h) = .next u ∧ t.rsp = u.rsp ∧ t.phase = u.phase

/-! ## The components -/

/-- R93: PADTAIL1. With r = NBYTES mod 64: BUF[r] = 0x80; when r ≤ 55 zeros follow up to BUF[55] and the length field
stands in BUF[56..63]; when r ≥ 56 zeros follow up to BUF[63]; every other byte is as it was. NBYTES, H, PHASE and ERR
are not written. -/
def Obligations.FirstTailBlockIsPadded : Prop :=
  ∀ s : State, Memory.wf s.buf = true →
    (padTail1 s).nbytes = s.nbytes ∧ (padTail1 s).h = s.h ∧ KeepsControl s (padTail1 s) ∧
    ∀ a, Memory.read (padTail1 s).buf a =
      if a = s.nbytes.toNat % 64 then 0x80
      else if a < s.nbytes.toNat % 64 ∨ 64 ≤ a then Memory.read s.buf a
      else if s.nbytes.toNat % 64 ≤ 55 ∧ 56 ≤ a then
        (toBE64 (BitVec.ofNat 64 (8 * s.nbytes.toNat))).getD (a - 56) 0
      else 0x00

/-- R94: PADTAIL2. BUF[0..55] = 0x00 and BUF[56..63] = ToBE64(8·NBYTES). -/
def Obligations.SecondTailBlockIsZerosAndLength : Prop :=
  ∀ s : State, Memory.wf s.buf = true →
    (padTail2 s).nbytes = s.nbytes ∧ (padTail2 s).h = s.h ∧ KeepsControl s (padTail2 s) ∧
    ∀ a, Memory.read (padTail2 s).buf a =
      if a < 56 then 0x00
      else if a < 64 then (toBE64 (BitVec.ofNat 64 (8 * s.nbytes.toNat))).getD (a - 56) 0
      else Memory.read s.buf a

/-- R101: PARSE writes W[0..15] with the big-endian words of BUF and no other word of W, and changes nothing else;
`Words` is that function of a block, and its words in order give the block back (the spec's inference "from rule R12").
-/
def Obligations.ParseReadsBigEndianWords : Prop :=
  (∀ s : State, KeepsControl s (parse s) ∧ KeepsData s (parse s) ∧
    ∀ j (hj : j < 64), (parse s).w[j] =
      if j < 16 then
        be32 (Memory.read s.buf (4 * j)) (Memory.read s.buf (4 * j + 1)) (Memory.read s.buf (4 * j + 2))
          (Memory.read s.buf (4 * j + 3))
      else s.w[j]) ∧
  (∀ (m : Memory) (j : Nat) (hj : j < 16), (words (Memory.block m))[j] = Memory.read32 m (4 * j)) ∧
  ∀ b : Block, (words b).toList.flatMap toBE32 = b.toList

/-- R113: EXPAND leaves W[0..15] and gives W[16..63] by the recurrence, on the words it has itself written. -/
def Obligations.ExpandFollowsRecurrence : Prop :=
  ∀ s : State, KeepsControl s (expand s) ∧ KeepsData s (expand s) ∧
    (∀ t (ht : t < 16), (expand s).w[t] = s.w[t]) ∧
    ∀ t (ht : t < 48), (expand s).w[t + 16] =
      add32 (add32 (add32 (ssig1 (expand s).w[t + 14]) (expand s).w[t + 9]) (ssig0 (expand s).w[t + 1]))
        (expand s).w[t]

/-- R126, R127, R128, R130: `Compress` is LOADWORK, then rounds 0 to 63 in order, each with its own K[t] and W[t], then
the elementwise addition of the old state: whatever sequence of working variables follows the rounds, its end decides
the output. -/
def Obligations.CompressIsSixtyFourRounds : Prop :=
  ∀ (h : State8) (w : Vector Word 64) (v : Nat → Work),
    v 0 = ⟨h[0], h[1], h[2], h[3], h[4], h[5], h[6], h[7]⟩ →
    (∀ t (ht : t < 64),
      let x := v t
      let t1 := x.h + bsig1 x.e + ch x.e x.f x.g + Tables.K[t] + w[t]
      let t2 := bsig0 x.a + maj x.a x.b x.c
      v (t + 1) = ⟨t1 + t2, x.a, x.b, x.c, x.d + t1, x.e, x.f, x.g⟩) →
    compress h w =
      #v[h[0] + (v 64).a, h[1] + (v 64).b, h[2] + (v 64).c, h[3] + (v 64).d,
         h[4] + (v 64).e, h[5] + (v 64).f, h[6] + (v 64).g, h[7] + (v 64).h]

/-- R141: BLOCK, the operation that runs PARSE, EXPAND, LOADWORK and the rounds on the state's own scratch registers,
has the function form: H <- Compress(H, Schedule(Words(BUF))), whatever the scratch held; it writes no other register of
the command-level state. -/
def Obligations.BlockIsCompressOfBuffer : Prop :=
  ∀ s : State, (block s).h = compress s.h (schedule (words (Memory.block s.buf))) ∧
    KeepsControl s (block s) ∧ (block s).nbytes = s.nbytes ∧
    (∀ a, Memory.read (block s).buf a = Memory.read s.buf a)

/-- R150, R54, R153: the digest is 32 bytes, byte 4i + j being bits [31 − 8j : 24 − 8j] of word i; the DIG window shows
it; DIGEST256 holds it most significant byte first; different states have different digests (the spec's inference). -/
def Obligations.DigestIsBigEndianAndInjective : Prop :=
  (∀ (h : State8) (i : Nat) (hi : i < 8) (j : Nat), j < 4 →
    (digest h)[4 * i + j]? = some (h[i].extractLsb' (24 - 8 * j) 8)) ∧
  (∀ h : State8, (digest h).length = 32) ∧
  (∀ (h : State8) (x : BitVec 5), (digest h)[x.toNat]? = some (readDig h x) ∧
    (digest256 h).extractLsb' (248 - 8 * x.toNat) 8 = readDig h x) ∧
  ∀ h k : State8, digest h = digest k → h = k

/-- R90, R91: the byte form of Pad is the bit form: append a `1` bit, the smallest number of `0` bits that makes the
length 448 modulo 512, and the length in 64 bits. R91 is the spec's inference from R90; the bit order in a byte (R52) is
general knowledge, GK3. -/
def Obligations.PadBytesAreSourcePadding : Prop :=
  ∀ (m p : List Byte), pad m = some p →
    ∃ k, bitString p = bitString m ++ [true] ++ List.replicate k false
        ++ bitString (toBE64 (BitVec.ofNat 64 (8 * m.length))) ∧
      (8 * m.length + 1 + k) % 512 = 448 ∧ (∀ l, (8 * m.length + 1 + l) % 512 = 448 → k ≤ l) ∧
      bitString p = padBits (bitString m)

/-- R92, R95, R97: Pad is defined exactly for messages of at most 2^61 − 1 bytes; its length is a multiple of 64, namely
64·(floor((n + 8)/64) + 1), between n + 9 and n + 72; M is a prefix, byte n is 0x80, the last 8 bytes are the length,
those between are 0x00; and Pad is injective. These are the spec's inferences from R91. -/
def Obligations.PadShape : Prop :=
  (∀ m : List Byte, (∃ p, pad m = some p) ↔ m.length ≤ 2 ^ 61 - 1) ∧
  (∀ m p : List Byte, pad m = some p →
    p.length % 64 = 0 ∧ p.length = 64 * ((m.length + 8) / 64 + 1) ∧
    m.length + 9 ≤ p.length ∧ p.length ≤ m.length + 72 ∧
    m <+: p ∧ p[m.length]? = some 0x80 ∧
    (∀ i, m.length < i → i + 8 < p.length → p[i]? = some 0x00) ∧
    p.drop (p.length - 8) = toBE64 (BitVec.ofNat 64 (8 * m.length))) ∧
  ∀ m n p : List Byte, pad m = some p → pad n = some p → m = n

/-- R100: the blocks of a byte sequence whose length is a multiple of 64 follow one another without overlap or gap:
joined, they are the sequence. -/
def Obligations.BlocksJoinToSequence : Prop :=
  ∀ p : List Byte, p.length % 64 = 0 →
    (blocks p).length = p.length / 64 ∧ (blocks p).flatMap (fun b => b.toList) = p

/-! ## Whole computations -/

/-- R143, R96 for the message part (the spec's inferences): after INIT and the ABSORBs of any message of at most 2^61 −
1 bytes, from any state whose BUF is in canonical form, all responses are 0x000, H is the chain of the message's full
blocks, NBYTES is its length, and BUF holds the bytes of the unfinished block. -/
def Obligations.AbsorbedMessageIsInState : Prop :=
  ∀ (s : State) (m : List Byte), Memory.wf s.buf = true → m.length ≤ 2 ^ 61 - 1 →
    ∃ t, observe (m.length + 1) (s.presenting ([.init] ++ m.map .absorb)) =
        some (List.replicate (m.length + 1) 0x000, t) ∧
      t.phase = .active ∧ t.err = .none ∧ t.nbytes.toNat = m.length ∧ t.h = chain (blocks m) ∧
      (∀ i, i < m.length % 64 → Memory.read t.buf i = m.getD (64 * (m.length / 64) + i) 0) ∧
      t.pending = s.pending

/-- R169, R154: the conformance obligation. From any state whose BUF is in canonical form, for any message M of at most
2^61 − 1 bytes, INIT, ABSORB of each byte, FINAL and RDDIG 0 to 31 give n + 34 responses, all with FAULT = 0, and the
DATA of the last 32, in order, are Hash(M), the composition of Pad, Blocks, Words, Schedule, Compress and Digest (R160).
R169 is the spec's inference "from rules R164 to R167"; the pad byte and the tables' values are general knowledge, GK1
to GK3. -/
def Obligations.OneShotCommandsComputeHash : Prop :=
  ∀ (s : State) (m : List Byte), Memory.wf s.buf = true → m.length ≤ 2 ^ 61 - 1 →
    ∃ d t, hashOf m = some d ∧ d.length = 32 ∧
      observe (m.length + 34) (s.presenting (hashCommands m ++ readCommands)) =
        some (List.replicate (m.length + 2) 0x000 ++ d.map (fun b => (0#1 ++ b : Response)), t) ∧
      t.phase = .done ∧ t.err = .none ∧ t.pending = s.pending

/-- R169, the spec's inference: NOP and RDSTAT may be inserted anywhere without changing the result: any commands that
are INIT, the message's ABSORBs and FINAL once those two are taken out give one response each, all with FAULT = 0, and
leave Hash(M) in the DIG window. -/
def Obligations.NeutralCommandsDoNotChangeHash : Prop :=
  ∀ (s : State) (m : List Byte) (is : List Instr), Memory.wf s.buf = true → m.length ≤ 2 ^ 61 - 1 →
    is.filter (fun i => !isNeutral i) = hashCommands m →
    ∃ rs t, observe is.length (s.presenting is) = some (rs, t) ∧ rs.length = is.length ∧
      (∀ r ∈ rs, r.getLsbD 8 = false) ∧ t.phase = .done ∧ hashOf m = some (digest t.h)

/-- R170, the spec's inference: a message given in chunks has the hash of the whole message, whatever the chunk boundaries.
From any state whose BUF is in canonical form, INIT, the ABSORBs of each chunk in turn, FINAL and RDDIG 0 to 31 give the
responses of R169 for the joined message, and they are the commands of the joined message. -/
def Obligations.ChunkBoundariesDoNotMatter : Prop :=
  ∀ (s : State) (chunks : List (List Byte)), Memory.wf s.buf = true → chunks.flatten.length ≤ 2 ^ 61 - 1 →
    let commands := [Instr.init] ++ chunks.flatMap (fun c => c.map Instr.absorb) ++ [Instr.final]
    commands = hashCommands chunks.flatten ∧
    ∃ d t, hashOf chunks.flatten = some d ∧ d.length = 32 ∧
      observe (chunks.flatten.length + 34) (s.presenting (commands ++ readCommands)) =
        some (List.replicate (chunks.flatten.length + 2) 0x000 ++ d.map (fun b => (0#1 ++ b : Response)), t) ∧
      t.phase = .done ∧ t.err = .none ∧ t.pending = s.pending

/-- R35 (the spec's inference), R18: RESET_DATA reaches no response. Two machines that come out of reset with any
contents in their data and scratch registers, and are then given the same words and the same resets (again with any
contents), give the same responses. -/
def Obligations.ResetDataReachesNoResponse : Prop :=
  ∀ (s u : State) (d e : ResetData) (es fs : List Event), es.map Event.choice = fs.map Event.choice →
    ∃ rs t v, observe es.length ((resetEvent d s).setPending es) = some (rs, t) ∧
      observe fs.length ((resetEvent e u).setPending fs) = some (rs, v) ∧ t.phase = v.phase ∧ t.err = v.err

/-! ## The port -/

/-- R82: a word is accepted only at an edge with rst = 0, cmd_valid = 1 and cmd_ready = 1; at any other edge without reset
the word presented has no effect. That the command-level state does not change at such an edge, also while a command is in
progress, is the model's choice: the effect is applied at the edge that accepts the command (log entry 6). -/
def Obligations.WordNotAcceptedHasNoEffect : Prop :=
  ∀ (i : Pins) (p : PortState), i.rst = false → accepts i p = false →
    ∃ q, portEdge i p = .next q ∧ q.core = p.core ∧ q.accepted = p.accepted ∧
      ∀ w, portEdge { i with cmd := w } p = .next q

/-- R226, R227: an accepted command completes: LATENCY edges after it was accepted, whatever the host does meanwhile
short of reset, its response is on the port, for that one cycle, and it is the command level's; then cmd_ready is 1
again. LATENCY is the constant without a body, so this holds for every latency (log entry 6); that cmd_ready comes back
in the cycle after the response, and not with it, is the model's reading (log entry 7). -/
def Obligations.AcceptedCommandAnswersOnce : Prop :=
  ∀ (i : Pins) (p : PortState) (is : List Pins), accepts i p = true → (∀ j ∈ is, j.rst = false) →
    is.length = Config.latencyBeyondOne i.cmd p.core p.accepted →
    ∃ r q, portRun (i :: is) p = some ([i.cmd], [r], q) ∧ q.rspOut = some r ∧
      commandRun [i.cmd] p.core = some ([r], q.core) ∧
      ∀ j : Pins, j.rst = false →
        ∃ n, portEdge j q = .next n ∧ n.core = q.core ∧ n.rspOut = none ∧ n.cmdReady = true

/-- R220, R221: reset at any edge, also during a command, leaves PHASE = IDLE, ERR = NONE and rsp_valid = 0, and the
abandoned command gives no response later. That cmd_ready is 1 already after the edge with rst = 1 is the model's choice
(log entry 7): R220 says "once rst returns to 0". -/
def Obligations.ResetAbandonsCommand : Prop :=
  ∀ (i : Pins) (p : PortState), i.rst = true →
    ∃ q, portEdge i p = .next q ∧ q.core.phase = .idle ∧ q.core.err = .none ∧ q.cmdReady = true ∧ q.rspOut = none ∧
      ∀ is : List Pins, (∀ j ∈ is, j.rst = false ∧ j.cmdValid = false) → portRun is q = some ([], [], q)

/-- R82, R58: the port refines the command level. Over any edges without reset, from a port that is ready, the responses
seen, with the one still owed, are the command level's responses to the words accepted, one for one and in order. That the
state is the command level's also while a response is owed is the model's choice: the effect is applied at the edge that
accepts the command (log entry 6). -/
def Obligations.PortRefinesCommandLevel : Prop :=
  ∀ (is : List Pins) (p : PortState), p.seq = .ready → (∀ j ∈ is, j.rst = false) →
    ∃ ws rs q, portRun is p = some (ws, rs, q) ∧
      commandRun ws p.core = some (rs ++ q.seq.owed, q.core) ∧ rs.length + q.seq.owed.length = ws.length

/-! ## The assembler -/

/-- R80, R81: no line but `.word` assembles to a reserved word, and HASH is INIT, the text's ABSORBs, FINAL and RDDIG 0 to
31. -/
def Obligations.AssemblerEmitsNoReservedWord : Prop :=
  (∀ l : AsmLine, (∀ w, l ≠ .rawWord w) → ∀ w ∈ l.words, CmdWord.wellFormed w = true) ∧
  (∀ text : List Byte, (AsmLine.hash text).words =
    [0x100] ++ (AsmLine.absorbs text).words ++ [0x300] ++ AsmLine.rddigest.words) ∧
  AsmLine.rddigest.words = (List.range 32).map (fun i => BitVec.ofNat 12 (0x400 + i))
end

