-- ==== Sys2Proof/Laws/Memory.lean ====
section
/-! SUPPORT. The laws of BUF: a read after a write, the canonical form, and what a run of bytes written reads as. -/

namespace Sys2Proof.Machine

@[simp] theorem Memory.read_nil (a : Nat) : Memory.read [] a = Config.bufUnwritten := rfl

@[simp] theorem Memory.read_cons (k : Nat) (b : Byte) (m : Memory) (a : Nat) :
    Memory.read ((k, b) :: m) a = if k = a then b else Memory.read m a := rfl

theorem Memory.risesAbove_mono {lo lo' : Nat} (h : lo ≤ lo') :
    ∀ {m : Memory}, Memory.risesAbove lo' m = true → Memory.risesAbove lo m = true
  | [], _ => rfl
  | (k, b) :: m, hm => by
    simp only [Memory.risesAbove, Bool.and_eq_true, decide_eq_true_eq] at hm ⊢
    exact ⟨le_trans h hm.1, hm.2⟩

/-- Below the first address nothing is listed. -/
theorem Memory.read_of_risesAbove :
    ∀ {m : Memory} {lo a : Nat}, Memory.risesAbove lo m = true → a < lo → Memory.read m a = Config.bufUnwritten
  | [], _, _, _, _ => rfl
  | (k, b) :: m, lo, a, hm, ha => by
    simp only [Memory.risesAbove, Bool.and_eq_true, decide_eq_true_eq] at hm
    have hk : k ≠ a := by omega
    simp only [Memory.read_cons, hk, if_false]
    exact Memory.read_of_risesAbove hm.2 (by omega)

theorem Memory.read_cell_append (a : Nat) (b : Byte) (m : Memory) (c : Nat) (hm : Memory.read m a = Config.bufUnwritten) :
    Memory.read (Memory.cell a b ++ m) c = if c = a then b else Memory.read m c := by
  unfold Memory.cell
  split
  · next hb => by_cases hc : c = a <;> simp_all
  · simp [eq_comm]

/-- Read after write, over cells that rise. -/
theorem Memory.read_write_of_rises :
    ∀ {m : Memory} {lo : Nat}, Memory.risesAbove lo m = true → ∀ (a : Nat) (b : Byte) (c : Nat),
      Memory.read (Memory.write m a b) c = if c = a then b else Memory.read m c
  | [], _, _, a, b, c => by
    have := Memory.read_cell_append a b [] c rfl
    simpa [Memory.write] using this
  | (k, d) :: m, lo, hm, a, b, c => by
    simp only [Memory.risesAbove, Bool.and_eq_true, decide_eq_true_eq] at hm
    simp only [Memory.write]
    split
    · next hak =>
      refine Memory.read_cell_append a b ((k, d) :: m) c ?_
      have hk : k ≠ a := by omega
      simp only [Memory.read_cons, hk, if_false]
      exact Memory.read_of_risesAbove hm.2 (by omega)
    · split
      · next _ hak =>
        subst hak
        rw [Memory.read_cell_append a b m c (Memory.read_of_risesAbove hm.2 (by omega)), Memory.read_cons]
        by_cases hc : c = a <;> simp [hc, eq_comm]
        intro h; exact absurd h.symm hc
      · next h1 h2 =>
        rw [Memory.read_cons, Memory.read_cons, Memory.read_write_of_rises hm.2 a b c]
        by_cases hkc : k = c
        · have : c ≠ a := by omega
          simp [hkc, this]
        · simp [hkc]

theorem Memory.risesAbove_cell_append {a lo : Nat} {b : Byte} {m : Memory} (hlo : lo ≤ a)
    (hm : Memory.risesAbove (a + 1) m = true) : Memory.risesAbove lo (Memory.cell a b ++ m) = true := by
  unfold Memory.cell
  split
  · simpa using Memory.risesAbove_mono (by omega) hm
  · simp [Memory.risesAbove, hlo, hm]

theorem Memory.risesAbove_write :
    ∀ {m : Memory} {lo : Nat} {a : Nat} {b : Byte}, Memory.risesAbove lo m = true → lo ≤ a →
      Memory.risesAbove lo (Memory.write m a b) = true
  | [], lo, a, b, _, hlo => by
    have := Memory.risesAbove_cell_append (b := b) (m := []) hlo rfl
    simpa [Memory.write] using this
  | (k, d) :: m, lo, a, b, hm, hlo => by
    simp only [Memory.risesAbove, Bool.and_eq_true, decide_eq_true_eq] at hm
    simp only [Memory.write]
    split
    · next hak =>
      refine Memory.risesAbove_cell_append hlo ?_
      simp only [Memory.risesAbove, Bool.and_eq_true, decide_eq_true_eq]
      exact ⟨by omega, hm.2⟩
    · split
      · next _ hak => subst hak; exact Memory.risesAbove_cell_append hlo hm.2
      · next h1 h2 =>
        simp only [Memory.risesAbove, Bool.and_eq_true, decide_eq_true_eq]
        exact ⟨hm.1, Memory.risesAbove_write hm.2 (by omega)⟩

/-- Every cell of a written memory is an old one or the one written, and that one is listed only if it differs from what an
unlisted address reads as. -/
theorem Memory.mem_write {c : Host.Cell} :
    ∀ {m : Memory} {a : Nat} {b : Byte}, c ∈ Memory.write m a b → c ∈ m ∨ (c = (a, b) ∧ b ≠ Config.bufUnwritten)
  | [], a, b, h => by
    simp only [Memory.write, Memory.cell] at h
    split at h <;> simp_all
  | (k, d) :: m, a, b, h => by
    simp only [Memory.write, Memory.cell] at h
    split at h
    · split at h <;> simp_all
      tauto
    · split at h
      · split at h <;> simp_all
        tauto
      · rcases List.mem_cons.1 h with rfl | h
        · simp
        · rcases Memory.mem_write h with h | h
          · exact Or.inl (List.mem_cons_of_mem _ h)
          · exact Or.inr h

/-- The canonical form in words. -/
theorem Memory.wf_iff {m : Memory} :
    Memory.wf m = true ↔
      Memory.risesAbove 0 m = true ∧ ∀ c ∈ m, c.1 < 64 ∧ c.2 ≠ Config.bufUnwritten := by
  simp [Memory.wf]

@[simp] theorem Memory.wf_nil : Memory.wf [] = true := rfl

/-- Read after write. -/
theorem Memory.read_write {m : Memory} (hm : Memory.wf m = true) (a : Nat) (b : Byte) (c : Nat) :
    Memory.read (Memory.write m a b) c = if c = a then b else Memory.read m c :=
  Memory.read_write_of_rises (Memory.wf_iff.1 hm).1 a b c

/-- A write to an index of BUF keeps the canonical form. -/
theorem Memory.wf_write {m : Memory} (hm : Memory.wf m = true) {a : Nat} (ha : a < 64) (b : Byte) :
    Memory.wf (Memory.write m a b) = true := by
  rw [Memory.wf_iff] at hm ⊢
  refine ⟨Memory.risesAbove_write hm.1 (Nat.zero_le a), fun c hc => ?_⟩
  rcases Memory.mem_write hc with h | ⟨rfl, hb⟩
  · exact hm.2 c h
  · exact ⟨ha, hb⟩

theorem Memory.wf_writeBytes :
    ∀ {bs : List Byte} {m : Memory} {a : Nat}, Memory.wf m = true → a + bs.length ≤ 64 →
      Memory.wf (Memory.writeBytes m a bs) = true
  | [], _, _, hm, _ => hm
  | b :: bs, m, a, hm, h => by
    simp only [List.length_cons] at h
    rw [Memory.writeBytes]
    exact Memory.wf_writeBytes (Memory.wf_write hm (by omega) b) (by omega)

/-- What a run of bytes written reads as. -/
theorem Memory.read_writeBytes :
    ∀ {bs : List Byte} {m : Memory} {a : Nat}, Memory.wf m = true → a + bs.length ≤ 64 → ∀ c,
      Memory.read (Memory.writeBytes m a bs) c =
        if a ≤ c ∧ c < a + bs.length then bs.getD (c - a) 0 else Memory.read m c
  | [], m, a, _, _, c => by
    have : ¬(a ≤ c ∧ c < a) := by omega
    simp [Memory.writeBytes, this]
  | b :: bs, m, a, hm, h, c => by
    simp only [List.length_cons] at h ⊢
    rw [Memory.writeBytes, Memory.read_writeBytes (Memory.wf_write hm (by omega) b) (by omega) c,
      Memory.read_write hm]
    by_cases h1 : c = a
    · subst h1
      have h2 : ¬(c + 1 ≤ c ∧ c < c + 1 + bs.length) := by omega
      have h3 : c ≤ c ∧ c < c + (bs.length + 1) := by omega
      simp [h3]
    · by_cases h2 : a + 1 ≤ c ∧ c < a + 1 + bs.length
      · have h3 : a ≤ c ∧ c < a + (bs.length + 1) := by omega
        have h4 : c - a = (c - (a + 1)) + 1 := by omega
        rw [if_pos h2, if_pos h3, h4, List.getD_cons_succ]
      · have h3 : ¬(a ≤ c ∧ c < a + (bs.length + 1)) := by omega
        rw [if_neg h2, if_neg h3, if_neg h1]

theorem Memory.wf_ofBlock (b : Block) : Memory.wf (Memory.ofBlock b) = true :=
  Memory.wf_writeBytes Memory.wf_nil (by simp)

theorem Memory.read_ofBlock (b : Block) (i : Nat) (hi : i < 64) : Memory.read (Memory.ofBlock b) i = b[i] := by
  rw [Memory.ofBlock, Memory.read_writeBytes Memory.wf_nil (by simp)]
  simp [hi]

/-- Canonical memories that read alike are the same list. -/
theorem Memory.ext_of_rises :
    ∀ {m n : Memory} {lo : Nat}, Memory.risesAbove lo m = true → Memory.risesAbove lo n = true →
      (∀ c ∈ m, c.2 ≠ Config.bufUnwritten) → (∀ c ∈ n, c.2 ≠ Config.bufUnwritten) →
      (∀ a, Memory.read m a = Memory.read n a) → m = n
  | [], [], _, _, _, _, _, _ => rfl
  | [], (k, b) :: n, _, _, _, _, hn, h => by
    have := h k
    simp at this
    exact absurd this.symm (hn (k, b) (by simp))
  | (k, b) :: m, [], _, _, _, hm, _, h => by
    have := h k
    simp at this
    exact absurd this (hm (k, b) (by simp))
  | (k, b) :: m, (l, d) :: n, lo, rm, rn, hm, hn, h => by
    simp only [Memory.risesAbove, Bool.and_eq_true, decide_eq_true_eq] at rm rn
    have hkl : k = l := by
      rcases Nat.lt_trichotomy k l with hlt | heq | hgt
      · have := h k
        have hl : l ≠ k := by omega
        simp only [Memory.read_cons, if_true, hl, if_false] at this
        rw [Memory.read_of_risesAbove rn.2 (by omega)] at this
        exact absurd this (hm (k, b) (by simp))
      · exact heq
      · have := h l
        have hl : k ≠ l := by omega
        simp only [Memory.read_cons, if_true, hl, if_false] at this
        rw [Memory.read_of_risesAbove rm.2 (by omega)] at this
        exact absurd this.symm (hn (l, d) (by simp))
    subst hkl
    have hbd : b = d := by simpa using h k
    subst hbd
    congr 1
    refine Memory.ext_of_rises rm.2 rn.2 (fun c hc => hm c (by simp [hc])) (fun c hc => hn c (by simp [hc])) fun a => ?_
    by_cases ha : k = a
    · subst ha
      rw [Memory.read_of_risesAbove rm.2 (by omega), Memory.read_of_risesAbove rn.2 (by omega)]
    · simpa [ha] using h a

theorem Memory.ext {m n : Memory} (hm : Memory.wf m = true) (hn : Memory.wf n = true)
    (h : ∀ a, Memory.read m a = Memory.read n a) : m = n := by
  rw [Memory.wf_iff] at hm hn
  exact Memory.ext_of_rises hm.1 hn.1 (fun c hc => (hm.2 c hc).2) (fun c hc => (hn.2 c hc).2) h

@[simp] theorem length_lengthField (n : U61) : (lengthField n).length = 8 := rfl

theorem bufferFill_lt (n : U61) : bufferFill n < 64 := Nat.mod_lt _ (by decide)

/-- PADTAIL1 keeps the canonical form. -/
theorem wf_padTail1Buf {m : Memory} (hm : Memory.wf m = true) (n : U61) : Memory.wf (padTail1Buf n m) = true := by
  have hr := bufferFill_lt n
  have hw := Memory.wf_write hm hr 0x80
  simp only [padTail1Buf]
  split
  · exact Memory.wf_writeBytes (Memory.wf_writeBytes hw (by simp; omega)) (by simp)
  · exact Memory.wf_writeBytes hw (by simp; omega)

/-- PADTAIL2 keeps the canonical form. -/
theorem wf_padTail2Buf {m : Memory} (hm : Memory.wf m = true) (n : U61) : Memory.wf (padTail2Buf n m) = true :=
  Memory.wf_writeBytes (Memory.wf_writeBytes hm (by simp)) (by simp)

end Sys2Proof.Machine
end

