-- ==== Sys2Proof/Laws/State.lean ====
section
/-! SUPPORT. One lemma for each field and each update of State, and for the reset event, so that no proof unfolds a record
update. -/

namespace Sys2Proof.Machine

@[simp] theorem State.setPhase_phase (s : State) (p : Phase) : (s.setPhase p).phase = p := rfl
@[simp] theorem State.setPhase_err (s : State) (p : Phase) : (s.setPhase p).err = s.err := rfl
@[simp] theorem State.setPhase_h (s : State) (p : Phase) : (s.setPhase p).h = s.h := rfl
@[simp] theorem State.setPhase_nbytes (s : State) (p : Phase) : (s.setPhase p).nbytes = s.nbytes := rfl
@[simp] theorem State.setPhase_buf (s : State) (p : Phase) : (s.setPhase p).buf = s.buf := rfl
@[simp] theorem State.setPhase_work (s : State) (p : Phase) : (s.setPhase p).work = s.work := rfl
@[simp] theorem State.setPhase_w (s : State) (p : Phase) : (s.setPhase p).w = s.w := rfl
@[simp] theorem State.setPhase_rsp (s : State) (p : Phase) : (s.setPhase p).rsp = s.rsp := rfl
@[simp] theorem State.setPhase_pending (s : State) (p : Phase) : (s.setPhase p).pending = s.pending := rfl

@[simp] theorem State.setErr_phase (s : State) (e : ErrCode) : (s.setErr e).phase = s.phase := rfl
@[simp] theorem State.setErr_err (s : State) (e : ErrCode) : (s.setErr e).err = e := rfl
@[simp] theorem State.setErr_h (s : State) (e : ErrCode) : (s.setErr e).h = s.h := rfl
@[simp] theorem State.setErr_nbytes (s : State) (e : ErrCode) : (s.setErr e).nbytes = s.nbytes := rfl
@[simp] theorem State.setErr_buf (s : State) (e : ErrCode) : (s.setErr e).buf = s.buf := rfl
@[simp] theorem State.setErr_work (s : State) (e : ErrCode) : (s.setErr e).work = s.work := rfl
@[simp] theorem State.setErr_w (s : State) (e : ErrCode) : (s.setErr e).w = s.w := rfl
@[simp] theorem State.setErr_rsp (s : State) (e : ErrCode) : (s.setErr e).rsp = s.rsp := rfl
@[simp] theorem State.setErr_pending (s : State) (e : ErrCode) : (s.setErr e).pending = s.pending := rfl

@[simp] theorem State.setH_phase (s : State) (h : State8) : (s.setH h).phase = s.phase := rfl
@[simp] theorem State.setH_err (s : State) (h : State8) : (s.setH h).err = s.err := rfl
@[simp] theorem State.setH_h (s : State) (h : State8) : (s.setH h).h = h := rfl
@[simp] theorem State.setH_nbytes (s : State) (h : State8) : (s.setH h).nbytes = s.nbytes := rfl
@[simp] theorem State.setH_buf (s : State) (h : State8) : (s.setH h).buf = s.buf := rfl
@[simp] theorem State.setH_work (s : State) (h : State8) : (s.setH h).work = s.work := rfl
@[simp] theorem State.setH_w (s : State) (h : State8) : (s.setH h).w = s.w := rfl
@[simp] theorem State.setH_rsp (s : State) (h : State8) : (s.setH h).rsp = s.rsp := rfl
@[simp] theorem State.setH_pending (s : State) (h : State8) : (s.setH h).pending = s.pending := rfl

@[simp] theorem State.setNbytes_phase (s : State) (n : U61) : (s.setNbytes n).phase = s.phase := rfl
@[simp] theorem State.setNbytes_err (s : State) (n : U61) : (s.setNbytes n).err = s.err := rfl
@[simp] theorem State.setNbytes_h (s : State) (n : U61) : (s.setNbytes n).h = s.h := rfl
@[simp] theorem State.setNbytes_nbytes (s : State) (n : U61) : (s.setNbytes n).nbytes = n := rfl
@[simp] theorem State.setNbytes_buf (s : State) (n : U61) : (s.setNbytes n).buf = s.buf := rfl
@[simp] theorem State.setNbytes_work (s : State) (n : U61) : (s.setNbytes n).work = s.work := rfl
@[simp] theorem State.setNbytes_w (s : State) (n : U61) : (s.setNbytes n).w = s.w := rfl
@[simp] theorem State.setNbytes_rsp (s : State) (n : U61) : (s.setNbytes n).rsp = s.rsp := rfl
@[simp] theorem State.setNbytes_pending (s : State) (n : U61) : (s.setNbytes n).pending = s.pending := rfl

@[simp] theorem State.setBuf_phase (s : State) (m : Memory) : (s.setBuf m).phase = s.phase := rfl
@[simp] theorem State.setBuf_err (s : State) (m : Memory) : (s.setBuf m).err = s.err := rfl
@[simp] theorem State.setBuf_h (s : State) (m : Memory) : (s.setBuf m).h = s.h := rfl
@[simp] theorem State.setBuf_nbytes (s : State) (m : Memory) : (s.setBuf m).nbytes = s.nbytes := rfl
@[simp] theorem State.setBuf_buf (s : State) (m : Memory) : (s.setBuf m).buf = m := rfl
@[simp] theorem State.setBuf_work (s : State) (m : Memory) : (s.setBuf m).work = s.work := rfl
@[simp] theorem State.setBuf_w (s : State) (m : Memory) : (s.setBuf m).w = s.w := rfl
@[simp] theorem State.setBuf_rsp (s : State) (m : Memory) : (s.setBuf m).rsp = s.rsp := rfl
@[simp] theorem State.setBuf_pending (s : State) (m : Memory) : (s.setBuf m).pending = s.pending := rfl

@[simp] theorem State.setWork_phase (s : State) (v : Work) : (s.setWork v).phase = s.phase := rfl
@[simp] theorem State.setWork_err (s : State) (v : Work) : (s.setWork v).err = s.err := rfl
@[simp] theorem State.setWork_h (s : State) (v : Work) : (s.setWork v).h = s.h := rfl
@[simp] theorem State.setWork_nbytes (s : State) (v : Work) : (s.setWork v).nbytes = s.nbytes := rfl
@[simp] theorem State.setWork_buf (s : State) (v : Work) : (s.setWork v).buf = s.buf := rfl
@[simp] theorem State.setWork_work (s : State) (v : Work) : (s.setWork v).work = v := rfl
@[simp] theorem State.setWork_w (s : State) (v : Work) : (s.setWork v).w = s.w := rfl
@[simp] theorem State.setWork_rsp (s : State) (v : Work) : (s.setWork v).rsp = s.rsp := rfl
@[simp] theorem State.setWork_pending (s : State) (v : Work) : (s.setWork v).pending = s.pending := rfl

@[simp] theorem State.setW_phase (s : State) (w : Vector Word 64) : (s.setW w).phase = s.phase := rfl
@[simp] theorem State.setW_err (s : State) (w : Vector Word 64) : (s.setW w).err = s.err := rfl
@[simp] theorem State.setW_h (s : State) (w : Vector Word 64) : (s.setW w).h = s.h := rfl
@[simp] theorem State.setW_nbytes (s : State) (w : Vector Word 64) : (s.setW w).nbytes = s.nbytes := rfl
@[simp] theorem State.setW_buf (s : State) (w : Vector Word 64) : (s.setW w).buf = s.buf := rfl
@[simp] theorem State.setW_work (s : State) (w : Vector Word 64) : (s.setW w).work = s.work := rfl
@[simp] theorem State.setW_w (s : State) (w : Vector Word 64) : (s.setW w).w = w := rfl
@[simp] theorem State.setW_rsp (s : State) (w : Vector Word 64) : (s.setW w).rsp = s.rsp := rfl
@[simp] theorem State.setW_pending (s : State) (w : Vector Word 64) : (s.setW w).pending = s.pending := rfl

@[simp] theorem State.setRsp_phase (s : State) (r : Option Response) : (s.setRsp r).phase = s.phase := rfl
@[simp] theorem State.setRsp_err (s : State) (r : Option Response) : (s.setRsp r).err = s.err := rfl
@[simp] theorem State.setRsp_h (s : State) (r : Option Response) : (s.setRsp r).h = s.h := rfl
@[simp] theorem State.setRsp_nbytes (s : State) (r : Option Response) : (s.setRsp r).nbytes = s.nbytes := rfl
@[simp] theorem State.setRsp_buf (s : State) (r : Option Response) : (s.setRsp r).buf = s.buf := rfl
@[simp] theorem State.setRsp_work (s : State) (r : Option Response) : (s.setRsp r).work = s.work := rfl
@[simp] theorem State.setRsp_w (s : State) (r : Option Response) : (s.setRsp r).w = s.w := rfl
@[simp] theorem State.setRsp_rsp (s : State) (r : Option Response) : (s.setRsp r).rsp = r := rfl
@[simp] theorem State.setRsp_pending (s : State) (r : Option Response) : (s.setRsp r).pending = s.pending := rfl

@[simp] theorem State.setPending_phase (s : State) (es : List Event) : (s.setPending es).phase = s.phase := rfl
@[simp] theorem State.setPending_err (s : State) (es : List Event) : (s.setPending es).err = s.err := rfl
@[simp] theorem State.setPending_h (s : State) (es : List Event) : (s.setPending es).h = s.h := rfl
@[simp] theorem State.setPending_nbytes (s : State) (es : List Event) : (s.setPending es).nbytes = s.nbytes := rfl
@[simp] theorem State.setPending_buf (s : State) (es : List Event) : (s.setPending es).buf = s.buf := rfl
@[simp] theorem State.setPending_work (s : State) (es : List Event) : (s.setPending es).work = s.work := rfl
@[simp] theorem State.setPending_w (s : State) (es : List Event) : (s.setPending es).w = s.w := rfl
@[simp] theorem State.setPending_rsp (s : State) (es : List Event) : (s.setPending es).rsp = s.rsp := rfl
@[simp] theorem State.setPending_pending (s : State) (es : List Event) : (s.setPending es).pending = es := rfl

@[simp] theorem State.respond_phase (s : State) (b : Byte) : (s.respond b).phase = s.phase := rfl
@[simp] theorem State.respond_err (s : State) (b : Byte) : (s.respond b).err = s.err := rfl
@[simp] theorem State.respond_h (s : State) (b : Byte) : (s.respond b).h = s.h := rfl
@[simp] theorem State.respond_nbytes (s : State) (b : Byte) : (s.respond b).nbytes = s.nbytes := rfl
@[simp] theorem State.respond_buf (s : State) (b : Byte) : (s.respond b).buf = s.buf := rfl
@[simp] theorem State.respond_work (s : State) (b : Byte) : (s.respond b).work = s.work := rfl
@[simp] theorem State.respond_w (s : State) (b : Byte) : (s.respond b).w = s.w := rfl
@[simp] theorem State.respond_rsp (s : State) (b : Byte) : (s.respond b).rsp = some (okResponse b) := rfl
@[simp] theorem State.respond_pending (s : State) (b : Byte) : (s.respond b).pending = s.pending := rfl

@[simp] theorem resetEvent_phase (d : ResetData) (s : State) : (resetEvent d s).phase = .idle := rfl
@[simp] theorem resetEvent_err (d : ResetData) (s : State) : (resetEvent d s).err = .none := rfl
@[simp] theorem resetEvent_h (d : ResetData) (s : State) : (resetEvent d s).h = d.h := rfl
@[simp] theorem resetEvent_nbytes (d : ResetData) (s : State) : (resetEvent d s).nbytes = d.nbytes := rfl
@[simp] theorem resetEvent_buf (d : ResetData) (s : State) : (resetEvent d s).buf = Memory.ofBlock d.buf := rfl
@[simp] theorem resetEvent_work (d : ResetData) (s : State) : (resetEvent d s).work = d.work := rfl
@[simp] theorem resetEvent_w (d : ResetData) (s : State) : (resetEvent d s).w = d.w := rfl
@[simp] theorem resetEvent_rsp (d : ResetData) (s : State) : (resetEvent d s).rsp = none := rfl
@[simp] theorem resetEvent_pending (d : ResetData) (s : State) : (resetEvent d s).pending = s.pending := rfl

@[simp] theorem awaitEvent_phase (s : State) : (awaitEvent s).phase = s.phase := rfl
@[simp] theorem awaitEvent_err (s : State) : (awaitEvent s).err = s.err := rfl
@[simp] theorem awaitEvent_h (s : State) : (awaitEvent s).h = s.h := rfl
@[simp] theorem awaitEvent_nbytes (s : State) : (awaitEvent s).nbytes = s.nbytes := rfl
@[simp] theorem awaitEvent_buf (s : State) : (awaitEvent s).buf = s.buf := rfl
@[simp] theorem awaitEvent_work (s : State) : (awaitEvent s).work = s.work := rfl
@[simp] theorem awaitEvent_w (s : State) : (awaitEvent s).w = s.w := rfl
@[simp] theorem awaitEvent_rsp (s : State) : (awaitEvent s).rsp = none := rfl
@[simp] theorem awaitEvent_pending (s : State) : (awaitEvent s).pending = s.pending := rfl

end Sys2Proof.Machine
end

