-- ==== Sys2Proof/Laws/Ops.lean ====
section
/-! SUPPORT. What each shared operation can do, said once: fault entry, taking an event, and the frames of BLOCK's steps. -/

namespace Sys2Proof.Machine

/-! Fault entry writes ERR, PHASE and the response, and nothing else. -/

@[simp] theorem raise_phase (f : CommandFault) (s : State) : (raise f s).phase = .error := by
  unfold raise recordFault; split <;> simp [*]

@[simp] theorem raise_err (f : CommandFault) (s : State) :
    (raise f s).err = if s.phase = .error then s.err else f.code := by
  unfold raise recordFault; split <;> simp

@[simp] theorem raise_rsp (f : CommandFault) (s : State) :
    (raise f s).rsp = some (faultResponse (raise f s).err) := rfl

@[simp] theorem raise_h (f : CommandFault) (s : State) : (raise f s).h = s.h := by
  unfold raise recordFault; split <;> rfl

@[simp] theorem raise_nbytes (f : CommandFault) (s : State) : (raise f s).nbytes = s.nbytes := by
  unfold raise recordFault; split <;> rfl

@[simp] theorem raise_buf (f : CommandFault) (s : State) : (raise f s).buf = s.buf := by
  unfold raise recordFault; split <;> rfl

@[simp] theorem raise_work (f : CommandFault) (s : State) : (raise f s).work = s.work := by
  unfold raise recordFault; split <;> rfl

@[simp] theorem raise_w (f : CommandFault) (s : State) : (raise f s).w = s.w := by
  unfold raise recordFault; split <;> rfl

@[simp] theorem raise_pending (f : CommandFault) (s : State) : (raise f s).pending = s.pending := by
  unfold raise recordFault; split <;> rfl

/-- An event is taken off the front of `pending`, and nothing else changes. -/
theorem takeEvent_eq_some {s : State} {e : Event} {t : State} :
    takeEvent s = some (e, t) ↔ ∃ es, s.pending = e :: es ∧ t = s.setPending es := by
  unfold takeEvent
  split
  · next h => simp [h]
  · next e' es h =>
    simp only [h, Option.some.injEq, Prod.mk.injEq, List.cons.injEq]
    constructor
    · rintro ⟨rfl, rfl⟩; exact ⟨es, ⟨rfl, rfl⟩, rfl⟩
    · rintro ⟨fs, ⟨rfl, rfl⟩, rfl⟩; exact ⟨rfl, rfl⟩

theorem takeEvent_eq_none {s : State} : takeEvent s = none ↔ s.pending = [] := by
  unfold takeEvent
  split <;> simp_all

/-- The rounds change the working variables alone. -/
theorem roundOp_eq (t : Nat) (ht : t < 64) (s : State) :
    roundOp t ht s = s.setWork (mixRound s.work Tables.K[t] s.w[t]) := rfl

/-- A run of rounds on the state is the same run of rounds on the working variables. -/
theorem firstRounds_eq (s : State) :
    ∀ (n : Nat) (hn : n ≤ 64), firstRounds n hn s = s.setWork (roundsOn s.w n hn s.work)
  | 0, _ => rfl
  | n + 1, hn => by rw [firstRounds, firstRounds_eq s n]; rfl

theorem allRounds_eq (s : State) :
    allRounds s = s.setWork (roundsOn s.w 64 (Nat.le_refl 64) s.work) := by rw [allRounds, firstRounds_eq]

@[simp] theorem State.setW_setW (s : State) (v w : Vector Word 64) : (s.setW v).setW w = s.setW w := rfl

@[simp] theorem State.setWork_setWork (s : State) (u v : Work) : (s.setWork u).setWork v = s.setWork v := rfl

/-- What BLOCK leaves in the schedule array. -/
def blockSchedule (s : State) : Vector Word 64 := expandWords (parseInto s.buf s.w)

/-- BLOCK in one equation: the schedule and the working variables are scratch, and H gets the Compressor's output. -/
theorem block_eq (s : State) :
    block s =
      ((s.setW (blockSchedule s)).setWork
        (roundsOn (blockSchedule s) 64 (Nat.le_refl 64) (Work.ofState8 s.h))).setH (compress s.h (blockSchedule s)) := by
  have h : loadWork (expand (parse s)) = (s.setW (blockSchedule s)).setWork (Work.ofState8 s.h) := by
    rw [loadWork, expand, parse, State.setW_w, State.setW_setW, State.setW_h, blockSchedule]
  rw [block, h, allRounds_eq]
  generalize blockSchedule s = S
  rw [State.setWork_setWork, State.setWork_w, State.setW_w, State.setWork_work]
  rw [accumulate, State.setWork_h, State.setW_h, State.setWork_work, compress]

/-- H after BLOCK, by the schedule BLOCK computed. -/
theorem block_h_eq (s : State) : (block s).h = compress s.h (blockSchedule s) := by
  rw [block_eq, State.setH_h]

@[simp] theorem block_phase (s : State) : (block s).phase = s.phase := by
  rw [block_eq, State.setH_phase, State.setWork_phase, State.setW_phase]
@[simp] theorem block_err (s : State) : (block s).err = s.err := by
  rw [block_eq, State.setH_err, State.setWork_err, State.setW_err]
@[simp] theorem block_nbytes (s : State) : (block s).nbytes = s.nbytes := by
  rw [block_eq, State.setH_nbytes, State.setWork_nbytes, State.setW_nbytes]
@[simp] theorem block_buf (s : State) : (block s).buf = s.buf := by
  rw [block_eq, State.setH_buf, State.setWork_buf, State.setW_buf]
@[simp] theorem block_rsp (s : State) : (block s).rsp = s.rsp := by
  rw [block_eq, State.setH_rsp, State.setWork_rsp, State.setW_rsp]
@[simp] theorem block_pending (s : State) : (block s).pending = s.pending := by
  rw [block_eq, State.setH_pending, State.setWork_pending, State.setW_pending]

end Sys2Proof.Machine
end

