-- ==== Sys2Proof/Laws/PerInstr.lean ====
section
/-! SUPPORT. The per-instruction family EncodingRow: a command's word is its row's, whatever the operand (R73). -/

namespace Sys2Proof.Laws

/-- The encoding matches the row of R73's table, so it is no reserved word. -/
def EncodingRow.Statement (i : Instr) : Prop :=
  i.row.selects (encode i) = true ∧ CmdWord.wellFormed (encode i) = true

theorem EncodingRow.nop : EncodingRow.Statement .nop := by unfold EncodingRow.Statement; decide
theorem EncodingRow.init : EncodingRow.Statement .init := by unfold EncodingRow.Statement; decide
theorem EncodingRow.absorb (byte : Byte) : EncodingRow.Statement (.absorb byte) := by
  unfold EncodingRow.Statement; revert byte; decide +kernel
theorem EncodingRow.final : EncodingRow.Statement .final := by unfold EncodingRow.Statement; decide
theorem EncodingRow.rddig (idx : BitVec 5) : EncodingRow.Statement (.rddig idx) := by
  unfold EncodingRow.Statement; revert idx; decide +kernel
theorem EncodingRow.rdstat : EncodingRow.Statement .rdstat := by unfold EncodingRow.Statement; decide

end Sys2Proof.Laws
end

