-- ==== Sys2Proof/Laws/Step.lean ====
section
/-! SUPPORT. What a step can do, said once: the inversion lemmas the claims about runs are proved from. -/

namespace Sys2Proof.Machine

/-- What a command can do when it answers a next state. -/
theorem exec_cases {i : Instr} {s t : State} (h : exec i s = .next t) :
    (i = .nop ∧ t = s.respond 0x00) ∨
    (i = .init ∧ t = (initState s).respond 0x00) ∨
    (∃ b, i = .absorb b ∧ s.phase ≠ .active ∧ t = raise .protocolFault s) ∨
    (∃ b, i = .absorb b ∧ s.phase = .active ∧ counterFull s.nbytes = true ∧ t = raise .lengthOverflow s) ∨
    (∃ b, i = .absorb b ∧ s.phase = .active ∧ counterFull s.nbytes = false ∧
      t = (blockIfFull (storeByte b s)).respond 0x00) ∨
    (i = .final ∧ s.phase ≠ .active ∧ t = raise .protocolFault s) ∨
    (i = .final ∧ s.phase = .active ∧ t = ((finishTail s).setPhase .done).respond 0x00) ∨
    (∃ x, i = .rddig x ∧ s.phase ≠ .done ∧ t = raise .protocolFault s) ∨
    (∃ x, i = .rddig x ∧ s.phase = .done ∧ t = s.respond (readDig s.h x)) ∨
    (i = .rdstat ∧ t = s.respond (statusByte s.err s.phase)) := by
  cases i with
  | nop => simp only [exec, execNop, Host.Outcome.next.injEq] at h; subst h; simp
  | init => simp only [exec, execInit, Host.Outcome.next.injEq] at h; subst h; simp
  | rdstat => simp only [exec, execRdstat, Host.Outcome.next.injEq] at h; subst h; simp
  | absorb b =>
    simp only [exec, execAbsorb] at h
    split at h
    · next hp => simp only [Host.Outcome.next.injEq] at h; subst h; simp [hp]
    · next hp =>
      have hp : s.phase = .active := by simpa using hp
      split at h
      · next hc => simp only [Host.Outcome.next.injEq] at h; subst h; simp [hp, hc]
      · next hc => simp only [Host.Outcome.next.injEq] at h; subst h; simp_all
  | final =>
    simp only [exec, execFinal] at h
    split at h
    · next hp => simp only [Host.Outcome.next.injEq] at h; subst h; simp [hp]
    · next hp => simp only [Host.Outcome.next.injEq] at h; subst h; simp_all
  | rddig x =>
    simp only [exec, execRddig] at h
    split at h
    · next hp => simp only [Host.Outcome.next.injEq] at h; subst h; simp [hp]
    · next hp => simp only [Host.Outcome.next.injEq] at h; subst h; simp_all

/-- What a step can do when it answers a next state: wait, run a decoded command, refuse a reserved word, or reset. -/
theorem step_cases {s t : State} (h : step s = .next t) :
    (s.pending = [] ∧ t = awaitEvent s) ∨
    (∃ w es i, s.pending = .command w :: es ∧ decode w = .command i ∧ exec i (s.setPending es) = .next t) ∨
    (∃ w es why, s.pending = .command w :: es ∧ decode w = .illegal why ∧
      t = raise .illegalCommand (s.setPending es)) ∨
    (∃ d es, s.pending = .reset d :: es ∧ t = resetEvent d (s.setPending es)) := by
  unfold step at h
  split at h
  · next hn =>
    simp only [Host.Outcome.next.injEq] at h
    exact Or.inl ⟨takeEvent_eq_none.1 hn, h.symm⟩
  · next e s' he =>
    obtain ⟨es, hs, rfl⟩ := takeEvent_eq_some.1 he
    cases e with
    | reset d =>
      simp only [performEvent, Host.Outcome.next.injEq] at h
      exact Or.inr (Or.inr (Or.inr ⟨d, es, hs, h.symm⟩))
    | command w =>
      simp only [performEvent, performCommand] at h
      split at h
      · next i hi => exact Or.inr (Or.inl ⟨w, es, i, hs, hi, h⟩)
      · next why hw =>
        simp only [Host.Outcome.next.injEq] at h
        exact Or.inr (Or.inr (Or.inl ⟨w, es, why, hs, hw, h.symm⟩))

end Sys2Proof.Machine
end

