-- ==== Sys2Proof/Laws/Words.lean ====
section
/-! SUPPORT. Bits of the byte-order primitives, and a way to check a fact of every command word. -/

namespace Sys2Proof

/-- A fact of all 4096 command words follows from its instances. -/
theorem forall_cmdWord {P : CmdWord → Prop} (h : ∀ n, n < 4096 → P (BitVec.ofNat 12 n)) : ∀ w, P w := by
  intro w
  have := h w.toNat w.isLt
  rwa [BitVec.ofNat_toNat, BitVec.setWidth_eq] at this

namespace Machine

/-- Bits of `BE32`. -/
theorem be32_getLsbD (b0 b1 b2 b3 : Byte) (i : Nat) :
    (be32 b0 b1 b2 b3).getLsbD i =
      if i < 8 then b3.getLsbD i else if i < 16 then b2.getLsbD (i - 8) else
        if i < 24 then b1.getLsbD (i - 16) else b0.getLsbD (i - 24) := by
  have h : (be32 b0 b1 b2 b3).getLsbD i = (b0 ++ b1 ++ b2 ++ b3 : BitVec (8 + 8 + 8 + 8)).getLsbD i := rfl
  simp only [h, BitVec.getLsbD_append]
  by_cases h1 : i < 8
  · simp [h1]
  by_cases h2 : i < 16
  · simp [h1, h2, show i - 8 < 8 by omega]
  by_cases h3 : i < 24
  · simp [h1, h2, h3, show ¬(i - 8 < 8) by omega, show i - 16 < 8 by omega, Nat.sub_sub]
  · simp [h1, h2, h3, show ¬(i - 8 < 8) by omega, show ¬(i - 16 < 8) by omega, Nat.sub_sub]

/-- Bits of a byte of a big-endian rendering. -/
theorem beByte_getLsbD (n : Nat) (v : BitVec (8 * n)) (j i : Nat) :
    (beByte n v j).getLsbD i = (decide (i < 8) && v.getLsbD (8 * (n - 1 - j) + i)) := by
  simp [beByte, BitVec.getLsbD_extractLsb']

/-- Bits of the message bit length. -/
theorem bitLength_getLsbD (n : U61) (i : Nat) :
    (bitLength n).getLsbD i = (decide (3 ≤ i) && n.getLsbD (i - 3)) := by
  have h : (bitLength n).getLsbD i = (n ++ 0#3 : BitVec (61 + 3)).getLsbD i := rfl
  rw [h, BitVec.getLsbD_append]
  by_cases hi : i < 3
  · simp [hi]
  · simp [hi]; omega

end Machine
end Sys2Proof
end

