-- ==== Sys2Proof/Tests/Slice0.lean ====
section
/-! SUPPORT. The model's own tests. Expected values are the spec's: 95_test_vectors.md, and the corner cases and examples of
the rules. The second half gives, for each statement that has hypotheses, a concrete case that meets them together. -/

namespace Sys2Proof.Tests

open Sys2Proof Sys2Proof.Machine

/-! ## Well-formed words (30_encoding.md R73, R75) -/

theorem test_reserved_opcode_refused : CmdWord.wellFormed 0x600 = false ∧ CmdWord.wellFormed 0xFFF = false := by decide
theorem test_nop_argument_refused : CmdWord.wellFormed 0x001 = false := by decide
theorem test_init_argument_refused : CmdWord.wellFormed 0x1FF = false := by decide
theorem test_final_argument_refused : CmdWord.wellFormed 0x380 = false := by decide
theorem test_rdstat_argument_refused : CmdWord.wellFormed 0x501 = false := by decide
theorem test_rddig_index_refused : CmdWord.wellFormed 0x420 = false ∧ CmdWord.wellFormed 0x4FF = false := by decide

/-! ## Decoding (95_test_vectors.md section 9.1) -/

theorem test_decode_absorb_ends :
    decode 0b0010_00000000#12 = .command (.absorb 0x00) ∧ decode 0b0010_10000000#12 = .command (.absorb 0x80) := by decide
theorem test_decode_rddig_ends :
    decode 0b0100_00000000#12 = .command (.rddig 0) ∧ decode 0b0100_00011111#12 = .command (.rddig 31) := by decide
theorem test_decode_reserved :
    decode 0b0000_00000001#12 = .illegal .argument ∧ decode 0b0100_00100000#12 = .illegal .index ∧
    decode 0b0110_00000000#12 = .illegal .opcode := by decide
theorem test_table_word_above_twelve_bits_refused :
    decodeTableWord 16 0x1100 = none ∧ decodeTableWord 16 0x100 = some .init := by decide

/-! ## Start states (95_test_vectors.md section 9.2) -/

/-- A state with these command-level contents. -/
def start (p : Phase) (e : ErrCode) (h : State8) (n : U61) (m : Memory) : State :=
  ((((State.reset.setPhase p).setErr e).setH h).setNbytes n).setBuf m

/-- ACTIVE after the three bytes "abc". -/
def activeAbc : State := start .active .none Tables.H0 3 [(0, 0x61), (1, 0x62), (2, 0x63)]

/-- The final state of "abc" (95_test_vectors.md section 8). -/
def hashAbc : State8 :=
  #v[0xBA7816BF, 0x8F01CFEA, 0x414140DE, 0x5DAE2223, 0xB00361A3, 0x96177A9C, 0xB410FF61, 0xF20015AD]

/-- DONE with the digest of "abc". -/
def doneAbc : State := start .done .none hashAbc 3 []

/-- ERROR with a code. -/
def errorWith (e : ErrCode) : State := start .error e Tables.H0 0 []

/-- The answer is a next state, with this property. -/
def gives (o : Outcome) (p : State → Bool) : Bool :=
  match o with
  | .next t => p t
  | _ => false

/-! ## The commands, one step each (sections 9.2 to 9.5) -/

theorem test_nop_keeps_error :
    gives (exec .nop (errorWith .protocol))
      (fun t => t.rsp == some 0x000 && t.phase == .error && t.err == .protocol) = true := by
  decide
theorem test_init_leaves_error :
    gives (exec .init (errorWith .illegalCmd))
      (fun t => t.rsp == some 0x000 && t.phase == .active && t.err == .none && t.nbytes == 0) = true := by
  decide
theorem test_init_seeds_hash :
    gives (exec .init doneAbc) (fun t => t.h ==
      #v[0x6a09e667, 0xbb67ae85, 0x3c6ef372, 0xa54ff53a, 0x510e527f, 0x9b05688c, 0x1f83d9ab, 0x5be0cd19]) = true := by
  decide
theorem test_absorb_stores_at_fill :
    gives (exec (.absorb 0x64) activeAbc)
      (fun t => t.rsp == some 0x000 && t.nbytes == 4 && t.buf == [(0, 0x61), (1, 0x62), (2, 0x63), (3, 0x64)] &&
        t.h == Tables.H0) = true := by
  decide +kernel
theorem test_absorb_counts_to_the_last :
    gives (exec (.absorb 0xAA) (start .active .none hashAbc 0x1FFFFFFFFFFFFFFE []))
      (fun t => t.rsp == some 0x000 && t.nbytes == 0x1FFFFFFFFFFFFFFF && t.buf == [(62, 0xAA)] &&
        t.h == hashAbc) = true := by
  decide +kernel
theorem test_final_of_abc :
    gives (exec .final activeAbc) (fun t => t.rsp == some 0x000 && t.phase == .done && t.h == hashAbc) = true := by
  decide +kernel
theorem test_final_of_longest_message :
    gives (exec .final (start .active .none Tables.H0 0x1FFFFFFFFFFFFFFF []))
      (fun t => t.rsp == some 0x000 && t.phase == .done &&
        t.buf == [(56, 0xFF), (57, 0xFF), (58, 0xFF), (59, 0xFF), (60, 0xFF), (61, 0xFF), (62, 0xFF),
          (63, 0xF8)]) = true := by
  decide +kernel
theorem test_rddig_first_byte :
    gives (exec (.rddig 0) doneAbc) (fun t => t.rsp == some 0x0BA) = true := by
  decide
theorem test_rddig_last_byte :
    gives (exec (.rddig 31) doneAbc) (fun t => t.rsp == some 0x0AD) = true := by
  decide
theorem test_rdstat_protocol :
    gives (exec .rdstat (errorWith .protocol)) (fun t => t.rsp == some 0x00B) = true := by
  decide
theorem test_rdstat_length_overflow :
    gives (exec .rdstat (errorWith .lengthOverflow)) (fun t => t.rsp == some 0x007) = true := by
  decide

/-! ## Faults (sections 9.3 to 9.5) -/

theorem test_length_overflow :
    gives (exec (.absorb 0xAA) (start .active .none hashAbc 0x1FFFFFFFFFFFFFFF []))
      (fun t => t.rsp == some 0x101 && t.phase == .error && t.err == .lengthOverflow &&
        t.nbytes == 0x1FFFFFFFFFFFFFFF && t.buf == [] && t.h == hashAbc) = true := by
  decide
theorem test_phase_before_length :
    gives (performCommand 0x261 (start .idle .none hashAbc 0x1FFFFFFFFFFFFFFF []))
      (fun t => t.rsp == some 0x102 && t.err == .protocol) = true := by
  decide
theorem test_decode_before_phase :
    gives (performCommand 0x3FF State.reset) (fun t => t.rsp == some 0x103 && t.err == .illegalCmd) = true := by
  decide
theorem test_first_fault_sticks :
    gives (performCommand 0xFFF (errorWith .protocol))
      (fun t => t.rsp == some 0x102 && t.err == .protocol) = true := by
  decide
theorem test_rddig_outside_done :
    gives (performCommand 0x400 activeAbc) (fun t => t.rsp == some 0x102 && t.phase == .error) = true := by
  decide

/-! ## The components -/

/-- P4 of section 10: the 64th byte runs BLOCK in the same command. -/
theorem test_block_inside_absorb :
    (blockIfFull (storeByte 0x61 (start .active .none Tables.H0 63
      ((List.range 63).map (fun a => (a, 0x61)))))).h[0] = 0xDF5BB81C := by decide +kernel

/-- Section 4: byte i = i. -/
theorem test_parse_is_big_endian :
    ((parse (State.reset.setBuf ((List.range 64).tail.map (fun a => (a, BitVec.ofNat 8 a))))).w[0],
     (parse (State.reset.setBuf ((List.range 64).tail.map (fun a => (a, BitVec.ofNat 8 a))))).w[15]) =
      (0x00010203, 0x3C3D3E3F) := by decide +kernel

/-- Section 5.2: the schedule of the block of "abc". -/
def scheduleAbc : Vector Word 64 := schedule #v[0x61626380, 0, 0, 0, 0, 0, 0, 0, 0, 0, 0, 0, 0, 0, 0, 0x18]

theorem test_schedule_of_abc :
    (scheduleAbc[16], scheduleAbc[17], scheduleAbc[18], scheduleAbc[23], scheduleAbc[63]) =
      (0x61626380, 0x000F0000, 0x7DA86405, 0xE2E2C38E, 0x12B1EDEB) := by decide +kernel

/-- R126's example: round 0 of the block of "abc" from H0. -/
theorem test_round_zero_of_abc :
    mixRound (Work.ofState8 Tables.H0) 0x428A2F98 0x61626380 =
      ⟨0x5D6AEBCD, 0x6A09E667, 0xBB67AE85, 0x3C6EF372, 0xFA2A4622, 0x510E527F, 0x9B05688C, 0x1F83D9AB⟩ := by
  decide +kernel

theorem test_round_constants : (Tables.K[0], Tables.K[31], Tables.K[63]) = (0x428A2F98, 0x14292967, 0xC67178F2) := by
  decide

/-- R93's example. -/
theorem test_padtail1_of_abc :
    (padTail1 activeAbc).buf = [(0, 0x61), (1, 0x62), (2, 0x63), (3, 0x80), (63, 0x18)] := by decide +kernel

/-- R94's example: NBYTES = 56. -/
theorem test_padtail2_of_56 :
    (padTail2 (start .active .none Tables.H0 56 [(0, 0x61), (56, 0x80)])).buf = [(62, 0x01), (63, 0xC0)] := by
  decide +kernel

/-- Section 3.1, the column z. -/
theorem test_pad_zeros : [0, 1, 55, 56, 63, 64, 119, 120].map padZeros = [55, 54, 0, 63, 56, 55, 0, 63] := by decide

/-- R91's example. -/
theorem test_pad_of_abc :
    pad [0x61, 0x62, 0x63] =
      some ([0x61, 0x62, 0x63, 0x80] ++ List.replicate 52 0x00 ++ [0, 0, 0, 0, 0, 0, 0, 0x18]) := by decide +kernel

/-- R150's example, its first five and its last byte. -/
theorem test_digest_bytes :
    ((digest hashAbc).take 5, (digest hashAbc).getLast?) = ([0xBA, 0x78, 0x16, 0xBF, 0x8F], some 0xAD) := by decide

/-- R80, R81: P3 of section 10, and operands the assembler rejects. -/
theorem test_assemble_absorbs :
    assemble ['A', 'B', 'S', 'O', 'R', 'B', 'S', ' ', '"', 'H', 'i', '\\', 'n', '"', ' ', ';', 'x'] =
      some [0x248, 0x269, 0x20A] := by decide +kernel
theorem test_assemble_rejects_range : assemble ['R', 'D', 'D', 'I', 'G', ' ', '3', '2'] = none := by decide +kernel

/-! ## Witnesses for the statements' hypotheses -/

theorem test_witness_RotateRightMovesBits : ∃ n i : Nat, 0 < n ∧ n < 32 ∧ i < 32 := ⟨31, 31, by decide⟩
theorem test_witness_ShiftRightDivides : ∃ n i : Nat, 0 < n ∧ n < 32 ∧ 32 - n ≤ i := ⟨1, 31, by decide⟩
theorem test_witness_MixFunctions : ∃ i : Nat, i < 32 := ⟨31, by decide⟩
theorem test_witness_DecodeAndEncodeAgree : decode 0x41F = .command (.rddig 31) := by decide
theorem test_witness_DecodeFollowsOpcodeTable :
    rowRddig ∈ opcodeTable ∧ rowRddig.selects 0x41F = true ∧ decode 0x41F = .command (.rddig 31) := by decide

theorem test_witness_ResetEventFromAnyState :
    ∃ d es, (activeAbc.setPending [.reset ResetData.zero]).pending = Event.reset d :: es := ⟨_, _, rfl⟩
theorem test_witness_StepRunsDecodedCommand :
    ∃ w es i, (State.reset.setPending [.command 0x261]).pending = .command w :: es ∧ decode w = .command i :=
  ⟨0x261, [], .absorb 0x61, by decide⟩
theorem test_witness_ReservedWordRaisesIllegalCommand :
    ∃ w es why, (activeAbc.setPending [.command 0x420]).pending = .command w :: es ∧ decode w = .illegal why :=
  ⟨0x420, [], .index, by decide⟩
theorem test_witness_BlockWaitsWithoutEvent : State.reset.pending = [] := rfl
theorem test_witness_FetchWordIsNextCommand :
    decodeTableWord 12 0x2FF = some (.absorb 0xFF) ∧ decodeTableWord 16 0x500 = some .rdstat := by decide

theorem test_witness_Absorb_outside_active :
    Memory.wf doneAbc.buf = true ∧ doneAbc.phase ≠ .active := by decide
theorem test_witness_Absorb_counter_full :
    ∃ s : State, Memory.wf s.buf = true ∧ s.phase = .active ∧ s.nbytes.toNat = 2 ^ 61 - 1 :=
  ⟨start .active .none Tables.H0 0x1FFFFFFFFFFFFFFF [], by decide⟩
theorem test_witness_Absorb_counts :
    ∃ s : State, Memory.wf s.buf = true ∧ s.phase = .active ∧ s.nbytes.toNat ≠ 2 ^ 61 - 1 ∧
      s.nbytes.toNat = 2 ^ 61 - 2 :=
  ⟨start .active .none Tables.H0 0x1FFFFFFFFFFFFFFE [], by decide⟩
theorem test_witness_Absorb_fills_block :
    ∃ s : State, Memory.wf s.buf = true ∧ s.phase = .active ∧ s.nbytes.toNat ≠ 2 ^ 61 - 1 ∧
      (s.nbytes.toNat + 1) % 64 = 0 :=
  ⟨start .active .none Tables.H0 63 [], by decide⟩
theorem test_witness_Final_outside_active : State.reset.phase ≠ .active := by decide
theorem test_witness_Final_one_block :
    ∃ s : State, s.phase = .active ∧ s.nbytes.toNat % 64 = 55 := ⟨start .active .none Tables.H0 55 [], by decide⟩
theorem test_witness_Final_two_blocks :
    ∃ s : State, s.phase = .active ∧ s.nbytes.toNat % 64 = 56 := ⟨start .active .none Tables.H0 56 [], by decide⟩
theorem test_witness_Rddig : doneAbc.phase = .done ∧ activeAbc.phase ≠ .done := by decide
theorem test_witness_Rdstat_phases :
    (State.reset.Inv ∧ State.reset.phase = .idle) ∧ (activeAbc.Inv ∧ activeAbc.phase = .active) ∧
    (doneAbc.Inv ∧ doneAbc.phase = .done) := by decide
theorem test_witness_Rdstat_errors :
    ((errorWith .lengthOverflow).Inv ∧ (errorWith .lengthOverflow).phase = .error) ∧
    ((errorWith .protocol).Inv ∧ (errorWith .protocol).phase = .error) ∧
    ((errorWith .illegalCmd).Inv ∧ (errorWith .illegalCmd).phase = .error) := by decide

theorem test_witness_LegalityTable_refused :
    ∃ t r, exec .final State.reset = .next t ∧ t.rsp = some r ∧ r.getLsbD 8 = true :=
  ⟨_, 0x102, rfl, by decide, by decide⟩
theorem test_witness_LegalityTable_performed :
    ∃ t r, exec .rdstat State.reset = .next t ∧ t.rsp = some r ∧ r.getLsbD 8 = false :=
  ⟨_, 0x000, rfl, by decide, by decide⟩
theorem test_witness_FaultPrecedence_reserved :
    doneAbc.phase ≠ .error ∧ decode 0x420 = .illegal .index := by decide
theorem test_witness_FaultPrecedence_phase :
    ∃ s : State, s.phase ≠ .error ∧ s.phase ≠ .active ∧ s.nbytes.toNat = 2 ^ 61 - 1 :=
  ⟨start .idle .none Tables.H0 0x1FFFFFFFFFFFFFFF [], by decide⟩
theorem test_witness_FirstFaultSticks :
    ∃ t r, (errorWith .protocol).phase = .error ∧ performCommand 0xFFF (errorWith .protocol) = .next t ∧
      t.rsp = some r ∧ r.getLsbD 8 = true :=
  ⟨_, 0x102, by decide, rfl, by decide, by decide⟩

theorem test_witness_ErrorLeft_by_init :
    ∃ t, ((errorWith .protocol).setPending [.command 0x100]).phase = .error ∧
      step ((errorWith .protocol).setPending [.command 0x100]) = .next t ∧ t.phase ≠ .error :=
  ⟨_, by decide, rfl, by decide⟩
theorem test_witness_ErrorLeft_by_reset :
    ∃ t, ((errorWith .protocol).setPending [.reset ResetData.zero]).phase = .error ∧
      step ((errorWith .protocol).setPending [.reset ResetData.zero]) = .next t ∧ t.phase ≠ .error :=
  ⟨_, by decide, rfl, by decide⟩
theorem test_witness_PhaseGraph_reset :
    ∃ t, step (doneAbc.setPending [.reset ResetData.zero]) = .next t ∧ t.phase ≠ doneAbc.phase :=
  ⟨_, rfl, by decide⟩
theorem test_witness_PhaseGraph_init :
    ∃ t, step (State.reset.setPending [.command 0x100]) = .next t ∧ t.phase ≠ State.reset.phase :=
  ⟨_, rfl, by decide⟩
theorem test_witness_PhaseGraph_final :
    ∃ t, step (activeAbc.setPending [.command 0x300]) = .next t ∧ t.phase ≠ activeAbc.phase :=
  ⟨((finishTail activeAbc).setPhase .done).respond 0x00, rfl,
    by simp [activeAbc, start, State.respond, State.setPhase, State.setRsp, State.setErr, State.setH, State.setNbytes,
      State.setBuf]⟩
theorem test_witness_PhaseGraph_fault :
    ∃ t, step (doneAbc.setPending [.command 0xFFF]) = .next t ∧ t.phase ≠ doneAbc.phase :=
  ⟨_, rfl, by decide⟩
theorem test_witness_StepKeepsInvariant :
    ∃ t, (activeAbc.setPending [.command 0x264]).Inv ∧ step (activeAbc.setPending [.command 0x264]) = .next t :=
  ⟨_, by decide, rfl⟩
theorem test_witness_FaultResponseReportsErr :
    ∃ t r, (State.reset.setPending [.command 0x400]).Inv ∧ step (State.reset.setPending [.command 0x400]) = .next t ∧
      t.rsp = some r ∧ r.getLsbD 8 = true :=
  ⟨_, 0x102, by decide, rfl, by decide, by decide⟩

theorem test_witness_ByteCounter_init : ∃ t, exec .init doneAbc = .next t := ⟨_, rfl⟩
theorem test_witness_ByteCounter_counts :
    ∃ t, exec (.absorb 0) activeAbc = .next t ∧ activeAbc.phase = .active ∧ activeAbc.nbytes.toNat ≠ 2 ^ 61 - 1 :=
  ⟨_, rfl, by decide⟩
theorem test_witness_ByteCounter_refused :
    ∃ s t, exec (.absorb 0) s = .next t ∧ s.phase = .active ∧ s.nbytes.toNat = 2 ^ 61 - 1 :=
  ⟨start .active .none Tables.H0 0x1FFFFFFFFFFFFFFF [], _, rfl, by decide⟩
theorem test_witness_ByteCounter_others : ∃ t, exec .rdstat doneAbc = .next t := ⟨_, rfl⟩
theorem test_witness_HashValueWritten_init : ∃ t, exec .init doneAbc = .next t ∧ t.h ≠ doneAbc.h :=
  ⟨_, rfl, by decide⟩
theorem test_witness_HashValueWritten_final : ∃ t, exec .final activeAbc = .next t ∧ t.h ≠ activeAbc.h :=
  ⟨_, rfl, by decide +kernel⟩
theorem test_witness_BufferWritten_refused :
    ∃ t, Memory.wf doneAbc.buf = true ∧ exec .final doneAbc = .next t ∧ doneAbc.phase ≠ .active :=
  ⟨_, by decide, rfl, by decide⟩
theorem test_witness_BufferWritten_absorb :
    ∃ t, Memory.wf activeAbc.buf = true ∧ exec (.absorb 1) activeAbc = .next t ∧ 4 ≠ activeAbc.nbytes.toNat % 64 :=
  ⟨_, by decide, rfl, by decide⟩
theorem test_witness_BufferWritten_overflow :
    ∃ s t, Memory.wf s.buf = true ∧ exec (.absorb 1) s = .next t ∧ s.nbytes.toNat = 2 ^ 61 - 1 :=
  ⟨start .active .none Tables.H0 0x1FFFFFFFFFFFFFFF [], _, by decide, rfl, by decide⟩
theorem test_witness_BufferWritten_others :
    ∃ t, Memory.wf activeAbc.buf = true ∧ exec .init activeAbc = .next t := ⟨_, by decide, rfl⟩
theorem test_witness_CommandsLeaveEventsAlone : ∃ t, exec .nop (doneAbc.setPending [.command 0x500]) = .next t := ⟨_, rfl⟩
theorem test_witness_HashValueHiddenOutsideDone : activeAbc.phase ≠ .done := by decide

theorem test_witness_TailBlocks :
    Memory.wf activeAbc.buf = true ∧ activeAbc.nbytes.toNat % 64 ≤ 55 ∧
    Memory.wf (start .active .none Tables.H0 63 [(0, 0x61)]).buf = true := by decide
theorem test_witness_Parse_Expand : ∃ j t : Nat, j < 64 ∧ ¬(j < 16) ∧ t < 48 := ⟨16, 47, by decide⟩

/-- A sequence of working variables that follows the rounds. -/
def roundSequence (h : State8) (w : Vector Word 64) : Nat → Work
  | 0 => Work.ofState8 h
  | t + 1 =>
    if ht : t < 64 then mixRound (roundSequence h w t) Tables.K[t] w[t] else roundSequence h w t

theorem test_witness_CompressIsSixtyFourRounds (h : State8) (w : Vector Word 64) :
    roundSequence h w 0 = ⟨h[0], h[1], h[2], h[3], h[4], h[5], h[6], h[7]⟩ ∧
    ∀ t (ht : t < 64),
      let x := roundSequence h w t
      let t1 := x.h + bsig1 x.e + ch x.e x.f x.g + Tables.K[t] + w[t]
      let t2 := bsig0 x.a + maj x.a x.b x.c
      roundSequence h w (t + 1) = ⟨t1 + t2, x.a, x.b, x.c, x.d + t1, x.e, x.f, x.g⟩ := by
  refine ⟨rfl, fun t ht => ?_⟩
  simp only [roundSequence, ht, dif_pos]
  rfl

theorem test_witness_Digest : ∃ i j : Nat, i < 8 ∧ j < 4 ∧ digest hashAbc = digest hashAbc := ⟨7, 3, by decide, by decide, rfl⟩
theorem test_witness_Pad : ∃ p, pad [0x61] = some p := ⟨_, rfl⟩
theorem test_witness_Pad_between : ∃ p i, pad [0x61] = some p ∧ 1 < i ∧ i + 8 < p.length ∧ i + 9 = p.length :=
  ⟨_, 55, rfl, by decide +kernel⟩
theorem test_witness_BlocksJoinToSequence : (List.replicate 128 (0x61 : Byte)).length % 64 = 0 := by
  rw [List.length_replicate]

theorem test_witness_AbsorbedMessage :
    Memory.wf doneAbc.buf = true ∧ ([0x61, 0x62] : List Byte).length ≤ 2 ^ 61 - 1 ∧ 1 < ([0x61, 0x62] : List Byte).length % 64 := by
  decide
theorem test_witness_NeutralCommands :
    Memory.wf State.reset.buf = true ∧ ([0x61] : List Byte).length ≤ 2 ^ 61 - 1 ∧
    [.nop, .init, .rdstat, .absorb 0x61, .nop, .final, .rdstat].filter (fun i => !isNeutral i) = hashCommands [0x61] := by
  decide
theorem test_witness_ChunkBoundariesDoNotMatter :
    Memory.wf doneAbc.buf = true ∧ ([[0x61], [], [0x62, 0x63]] : List (List Byte)).flatten.length ≤ 2 ^ 61 - 1 := by decide
theorem test_witness_ResetDataReachesNoResponse :
    let d : ResetData := { ResetData.zero with nbytes := 5, h := hashAbc }
    [.command 0x100, .reset ResetData.zero, .command 0x400].map Event.choice =
      [.command 0x100, .reset d, .command 0x400].map Event.choice ∧ d ≠ ResetData.zero := by decide

/-! The port. -/

/-- Pins at rest, or presenting a word. -/
def pins (rst valid : Bool) (w : CmdWord) : Pins := ⟨rst, valid, w, ResetData.zero⟩

/-- A port that is ready, over the reset state. -/
def readyPort : PortState := ⟨State.reset, .ready, 0⟩

theorem test_witness_WordNotAccepted_no_valid :
    (pins false false 0x100).rst = false ∧ accepts (pins false false 0x100) readyPort = false := by decide
theorem test_witness_WordNotAccepted_busy :
    (pins false true 0x100).rst = false ∧
    accepts (pins false true 0x100) { readyPort with seq := .working 3 0x000 } = false ∧
    accepts (pins false true 0x100) { readyPort with seq := .responding 0x000 } = false := by decide
theorem test_witness_AcceptedCommandAnswersOnce :
    ∃ is : List Pins, accepts (pins false true 0x100) readyPort = true ∧ (∀ j ∈ is, j.rst = false) ∧
      is.length = Config.latencyBeyondOne (pins false true 0x100).cmd readyPort.core readyPort.accepted :=
  ⟨List.replicate _ (pins false true 0x300), by decide, by simp [pins], List.length_replicate⟩
theorem test_witness_ResetAbandonsCommand :
    (pins true true 0x100).rst = true ∧ ∀ j ∈ [pins false false 0x000, pins false false 0x300],
      j.rst = false ∧ j.cmdValid = false := by decide
theorem test_witness_PortRefinesCommandLevel :
    readyPort.seq = .ready ∧ ∀ j ∈ [pins false true 0x100, pins false true 0x261, pins false false 0x000], j.rst = false := by
  decide
theorem test_witness_AssemblerEmitsNoReservedWord :
    (∀ w, AsmLine.hash [0x61] ≠ .rawWord w) ∧ (0x100 : CmdWord) ∈ (AsmLine.hash [0x61]).words := by
  exact ⟨fun w => by simp, by decide⟩

end Sys2Proof.Tests
end

section
/-! PROOFS. The Padder's first tail block (40_padder.md R93). -/

namespace Sys2Proof.Machine

/-- The three zero bits below NBYTES are a factor of 8, which never leaves the 64 bits (R26). -/
theorem toNat_bitLength (n : U61) : (bitLength n).toNat = 8 * n.toNat := by
  have happend : (bitLength n).toNat = n.toNat <<< 3 ||| (0#3).toNat := BitVec.toNat_append n 0#3
  rw [happend, BitVec.toNat_zero, Nat.or_zero, Nat.shiftLeft_eq, Nat.mul_comm]

theorem bitLength_eq_ofNat (n : U61) : bitLength n = BitVec.ofNat 64 (8 * n.toNat) := by
  rw [← toNat_bitLength]
  exact (BitVec.ofNat_toNat 64 (bitLength n)).symm

/-- A run of `k` zero bytes written from `a` on. -/
theorem Memory.read_writeBytes_zeros {m : Memory} (hm : Memory.wf m = true) {a k : Nat} (hk : a + k ≤ 64) (c : Nat) :
    Memory.read (Memory.writeBytes m a (List.replicate k 0x00)) c =
      if a ≤ c ∧ c < a + k then 0x00 else Memory.read m c := by
  rw [Memory.read_writeBytes hm (by simpa using hk), List.length_replicate]
  refine if_congr Iff.rfl ?_ rfl
  rw [List.getD_eq_getElem?_getD, List.getElem?_replicate]
  split <;> rfl

/-- The length field written to BUF[56..63]. -/
theorem Memory.read_writeBytes_lengthField {m : Memory} (hm : Memory.wf m = true) (n : U61) (c : Nat) :
    Memory.read (Memory.writeBytes m 56 (lengthField n)) c =
      if 56 ≤ c ∧ c < 64 then (lengthField n).getD (c - 56) 0 else Memory.read m c := by
  rw [Memory.read_writeBytes hm (by simp), length_lengthField]

/-- PADTAIL1's first branch: the 0x80, the zeros up to BUF[55] and the length field fit in one block. -/
theorem read_padTail1Buf_of_fill_le {m : Memory} (hm : Memory.wf m = true) {n : U61} (hr : bufferFill n ≤ 55) (a : Nat) :
    Memory.read (padTail1Buf n m) a =
      if 56 ≤ a ∧ a < 64 then (lengthField n).getD (a - 56) 0
      else if bufferFill n + 1 ≤ a ∧ a < 56 then 0x00
      else if a = bufferFill n then 0x80
      else Memory.read m a := by
  have hmark := Memory.wf_write hm (bufferFill_lt n) 0x80
  have hzeros : bufferFill n + 1 + (55 - bufferFill n) = 56 := by omega
  simp only [padTail1Buf, if_pos hr]
  rw [Memory.read_writeBytes_lengthField (Memory.wf_writeBytes hmark (by simp [hzeros])),
    Memory.read_writeBytes_zeros hmark (by omega), Memory.read_write hm, hzeros]

/-- PADTAIL1's second branch: the 0x80 and zeros up to BUF[63]; the length is left to the second tail block. -/
theorem read_padTail1Buf_of_lt_fill {m : Memory} (hm : Memory.wf m = true) {n : U61} (hr : 55 < bufferFill n) (a : Nat) :
    Memory.read (padTail1Buf n m) a =
      if bufferFill n + 1 ≤ a ∧ a < 64 then 0x00
      else if a = bufferFill n then 0x80
      else Memory.read m a := by
  have hlt := bufferFill_lt n
  have hzeros : bufferFill n + 1 + (63 - bufferFill n) = 64 := by omega
  simp only [padTail1Buf, if_neg (Nat.not_le.2 hr)]
  rw [Memory.read_writeBytes_zeros (Memory.wf_write hm hlt 0x80) (by omega), Memory.read_write hm, hzeros]

/-- R93 byte by byte, both branches together: the regions of BUF in the order of the obligation. -/
theorem read_padTail1Buf {m : Memory} (hm : Memory.wf m = true) (n : U61) (a : Nat) :
    Memory.read (padTail1Buf n m) a =
      if a = bufferFill n then 0x80
      else if a < bufferFill n ∨ 64 ≤ a then Memory.read m a
      else if bufferFill n ≤ 55 ∧ 56 ≤ a then (lengthField n).getD (a - 56) 0
      else 0x00 := by
  have hlt := bufferFill_lt n
  rcases Nat.lt_or_ge 55 (bufferFill n) with hr | hr
  · rw [read_padTail1Buf_of_lt_fill hm hr]
    grind
  · rw [read_padTail1Buf_of_fill_le hm hr]
    grind

/-- Settles O41: PADTAIL1 only sets BUF, and BUF then reads as `read_padTail1Buf` says. -/
theorem firstTailBlockIsPadded : Obligations.FirstTailBlockIsPadded := by
  intro s hwf
  refine ⟨rfl, rfl, ⟨rfl, rfl⟩, fun a => ?_⟩
  rw [← bitLength_eq_ofNat]
  exact read_padTail1Buf hwf s.nbytes a

end Sys2Proof.Machine
end

section
/-! PROOFS. The Message Scheduler's EXPAND (42_message_schedule.md R113). -/

namespace Sys2Proof.Machine

/-- What one index of EXPAND writes. -/
theorem getElem_expandStep_self (i : Nat) (hi : i < 48) (w : Vector Word 64) :
    (expandStep i hi w)[i + 16] = add32 (add32 (add32 (ssig1 w[i + 14]) w[i + 9]) (ssig0 w[i + 1])) w[i] :=
  Vector.getElem_set_self _

/-- The words one index of EXPAND leaves. -/
theorem getElem_expandStep_of_ne {i t : Nat} (hi : i < 48) (w : Vector Word 64) (ht : t < 64) (hne : i + 16 ≠ t) :
    (expandStep i hi w)[t] = w[t] :=
  Vector.getElem_set_ne _ ht hne

/-- The indices only rise (R113): once the first `n` are done, no later one writes W[0 .. n+15] again. -/
theorem getElem_expandSteps_add {n t : Nat} (w : Vector Word 64) (hn : n ≤ 48) (ht : t < n + 16) :
    ∀ (k : Nat) (hk : n + k ≤ 48), (expandSteps (n + k) hk w)[t] = (expandSteps n hn w)[t]
  | 0, _ => rfl
  | k + 1, hk => by
    have hne : n + k + 16 ≠ t := by omega
    exact (getElem_expandStep_of_ne hk _ (by omega) hne).trans (getElem_expandSteps_add w hn ht k _)

/-- So the finished schedule can be read from any prefix of the run that has reached the word. -/
theorem getElem_expandWords {n t : Nat} (w : Vector Word 64) (hn : n ≤ 48) (ht : t < n + 16) :
    (expandWords w)[t] = (expandSteps n hn w)[t] := by
  obtain ⟨k, hk⟩ := Nat.exists_eq_add_of_le hn
  have hstable := getElem_expandSteps_add w hn ht k (Nat.le_of_eq hk.symm)
  simpa only [expandWords, ← hk] using hstable

theorem getElem_expandWords_of_lt {t : Nat} (w : Vector Word 64) (ht : t < 16) : (expandWords w)[t] = w[t] :=
  getElem_expandWords (n := 0) w (Nat.zero_le 48) (by omega)

/-- R113's recurrence on the finished schedule: the index that writes W[t+16] reads words already in their final form. -/
theorem getElem_expandWords_add_sixteen {t : Nat} (w : Vector Word 64) (ht : t < 48) :
    (expandWords w)[t + 16] =
      add32 (add32 (add32 (ssig1 (expandWords w)[t + 14]) (expandWords w)[t + 9]) (ssig0 (expandWords w)[t + 1]))
        (expandWords w)[t] := by
  have hread : ∀ u (hu : u < t + 16), (expandWords w)[u] = (expandSteps t (Nat.le_of_lt ht) w)[u] :=
    fun _ => getElem_expandWords w (Nat.le_of_lt ht)
  rw [hread (t + 14) (by omega), hread (t + 9) (by omega), hread (t + 1) (by omega), hread t (by omega),
    getElem_expandWords (n := t + 1) w ht (by omega)]
  exact getElem_expandStep_self t ht _

/-- Settles O44: EXPAND only sets W, and W then holds `expandWords` of what it held. -/
theorem expandFollowsRecurrence : Obligations.ExpandFollowsRecurrence := by
  intro s
  exact ⟨⟨rfl, rfl⟩, ⟨rfl, rfl, fun _ => rfl⟩, fun _ => getElem_expandWords_of_lt s.w,
    fun _ => getElem_expandWords_add_sixteen s.w⟩

end Sys2Proof.Machine
end

section
/-! PROOFS. The Block Parser's PARSE (41_block_parser.md R101). -/

namespace Sys2Proof.Machine

/-- The first `n` assignments of PARSE write the first `n` words and leave the others. -/
theorem getElem_parseSteps (m : Memory) (w : Vector Word 64) {j : Nat} (hj : j < 64) :
    ∀ (n : Nat) (hn : n ≤ 16), (parseSteps m n hn w)[j] = if j < n then Memory.read32 m (4 * j) else w[j]
  | 0, _ => rfl
  | n + 1, hn => by
    have ih := getElem_parseSteps m w hj n (Nat.le_of_succ_le hn)
    rw [parseSteps, Vector.getElem_set, ih]
    rcases Nat.lt_trichotomy n j with hlt | rfl | hgt
    · rw [if_neg hlt.ne, if_neg hlt.not_gt, if_neg (Nat.not_lt.2 hlt)]
    · rw [if_pos rfl, if_pos n.lt_succ_self]
    · rw [if_neg hgt.ne', if_pos hgt, if_pos (hgt.trans n.lt_succ_self)]

theorem getElem_parseInto (m : Memory) (w : Vector Word 64) {j : Nat} (hj : j < 64) :
    (parseInto m w)[j] = if j < 16 then Memory.read32 m (4 * j) else w[j] := by
  simp only [parseInto]
  exact getElem_parseSteps m w hj 16 (Nat.le_refl 16)

/-- `Words` of the block in BUF reads what PARSE reads. -/
theorem getElem_words_block (m : Memory) {j : Nat} (hj : j < 16) :
    (words (Memory.block m))[j] = Memory.read32 m (4 * j) := by
  simp only [words, Memory.block, Memory.read32, Vector.getElem_ofFn]

end Sys2Proof.Machine
end

section
/-! PROOFS. The State Accumulator's BLOCK (44_state_accumulator.md R141). -/

namespace Sys2Proof.Machine

/-- EXPAND reads no word of W beyond the first sixteen before writing it, so these decide the whole schedule. -/
theorem expandWords_congr {v w : Vector Word 64} (h : ∀ t (ht : t < 16), v[t] = w[t]) :
    expandWords v = expandWords w := by
  refine Vector.ext fun t ht => ?_
  induction t using Nat.strong_induction_on with
  | h t ih =>
    rcases Nat.lt_or_ge t 16 with hfirst | hlater
    · rw [getElem_expandWords_of_lt v hfirst, getElem_expandWords_of_lt w hfirst, h t hfirst]
    · obtain ⟨i, rfl⟩ := Nat.exists_eq_add_of_le' hlater
      have hi : i < 48 := by omega
      rw [getElem_expandWords_add_sixteen v hi, getElem_expandWords_add_sixteen w hi,
        ih (i + 14) (by omega), ih (i + 9) (by omega), ih (i + 1) (by omega), ih i (by omega)]

/-- The schedule BLOCK computes is `Schedule(Words(BUF))`, whatever the scratch W held: PARSE overwrites its first
sixteen words, and the others are not read. -/
theorem blockSchedule_eq (s : State) : blockSchedule s = schedule (words (Memory.block s.buf)) := by
  refine expandWords_congr fun t ht => ?_
  calc (parseInto s.buf s.w)[t]
      = Memory.read32 s.buf (4 * t) := by rw [getElem_parseInto, if_pos ht]
    _ = (words (Memory.block s.buf))[t] := (getElem_words_block s.buf ht).symm
    _ = _ := by rw [Vector.getElem_ofFn, dif_pos ht]

/-- R141's function form of BLOCK. -/
theorem block_h (s : State) : (block s).h = compressBlock s.h (Memory.block s.buf) := by
  rw [block_h_eq, blockSchedule_eq, compressBlock]

/-- Settles O46: H by the function form, and the registers BLOCK does not write. -/
theorem blockIsCompressOfBuffer : Obligations.BlockIsCompressOfBuffer := fun s =>
  ⟨block_h s, ⟨block_phase s, block_err s⟩, block_nbytes s, fun a => by rw [block_buf]⟩

end Sys2Proof.Machine
end

section
/-! PROOFS. The two answers a command can give: fault entry (60_exceptions.md R196) and a response (30_encoding.md R78). -/

namespace Sys2Proof.Machine

theorem KeepsControl.refl (s : State) : KeepsControl s s := ⟨rfl, rfl⟩

theorem KeepsData.refl (s : State) : KeepsData s s := ⟨rfl, rfl, fun _ => rfl⟩

theorem keepsControl_respond (s : State) (d : Byte) : KeepsControl s (s.respond d) := KeepsControl.refl s

theorem keepsData_respond (s : State) (d : Byte) : KeepsData s (s.respond d) := KeepsData.refl s

theorem keepsData_raise (f : CommandFault) (s : State) : KeepsData s (raise f s) :=
  ⟨raise_h f s, raise_nbytes f s, fun a => by rw [raise_buf]⟩

theorem takesFault_raise (f : CommandFault) (s : State) : TakesFault f.code s (raise f s) :=
  ⟨raise_phase f s, raise_err f s, keepsData_raise f s, raise_rsp f s⟩

end Sys2Proof.Machine
end

section
/-! PROOFS. ABSORB (46_commands.md R165). -/

namespace Sys2Proof.Machine

theorem exec_absorb_of_phase_ne {s : State} (h : s.phase ≠ .active) (b : Byte) :
    exec (.absorb b) s = .next (raise .protocolFault s) := if_pos h

theorem exec_absorb_of_counterFull {s : State} (h : s.phase = .active) (hfull : counterFull s.nbytes = true)
    (b : Byte) : exec (.absorb b) s = .next (raise .lengthOverflow s) :=
  (if_neg (not_not_intro h)).trans (if_pos hfull)

theorem exec_absorb_of_not_counterFull {s : State} (h : s.phase = .active) (hfull : ¬counterFull s.nbytes = true)
    (b : Byte) : exec (.absorb b) s = .next ((blockIfFull (storeByte b s)).respond 0x00) :=
  (if_neg (not_not_intro h)).trans (if_neg hfull)

theorem counterFull_iff (n : U61) : counterFull n = true ↔ n.toNat = 2 ^ 61 - 1 := beq_iff_eq

theorem bufferFull_iff (n : U61) : bufferFull n = true ↔ n.toNat % 64 = 0 := beq_iff_eq

/-- The counter counts without wrapping while it is not full (R26). -/
theorem toNat_add_one_of_not_counterFull {n : U61} (h : ¬counterFull n = true) : (n + 1).toNat = n.toNat + 1 := by
  rw [counterFull_iff] at h
  have hlt := n.isLt
  exact BitVec.toNat_add_of_lt (y := 1#61) (by rw [BitVec.toNat_one (by decide)]; omega)

@[simp] theorem storeByte_phase (b : Byte) (s : State) : (storeByte b s).phase = s.phase := rfl
@[simp] theorem storeByte_err (b : Byte) (s : State) : (storeByte b s).err = s.err := rfl
@[simp] theorem storeByte_h (b : Byte) (s : State) : (storeByte b s).h = s.h := rfl
@[simp] theorem storeByte_nbytes (b : Byte) (s : State) : (storeByte b s).nbytes = s.nbytes + 1 := rfl
@[simp] theorem storeByte_buf (b : Byte) (s : State) :
    (storeByte b s).buf = Memory.write s.buf (bufferFill s.nbytes) b := rfl

/-! BLOCK writes H alone of the command-level state, so whether it runs shows in H alone. -/

@[simp] theorem blockIfFull_phase (s : State) : (blockIfFull s).phase = s.phase := by
  unfold blockIfFull; split <;> simp
@[simp] theorem blockIfFull_err (s : State) : (blockIfFull s).err = s.err := by
  unfold blockIfFull; split <;> simp
@[simp] theorem blockIfFull_nbytes (s : State) : (blockIfFull s).nbytes = s.nbytes := by
  unfold blockIfFull; split <;> simp
@[simp] theorem blockIfFull_buf (s : State) : (blockIfFull s).buf = s.buf := by
  unfold blockIfFull; split <;> simp

theorem blockIfFull_h (s : State) :
    (blockIfFull s).h = if s.nbytes.toNat % 64 = 0 then compressBlock s.h (Memory.block s.buf) else s.h := by
  simp only [blockIfFull, bufferFull_iff, apply_ite State.h, block_h]

/-- Settles O24, one branch of ABSORB after the other: the two faults, then the store, the count and BLOCK. -/
theorem absorbStoresCountsAndCompresses : Obligations.AbsorbStoresCountsAndCompresses := by
  intro b s hwf
  refine ⟨fun hphase => ?_, fun hactive hfull => ?_, fun hactive hroom => ?_⟩
  · exact ⟨_, exec_absorb_of_phase_ne hphase b, takesFault_raise .protocolFault s⟩
  · exact ⟨_, exec_absorb_of_counterFull hactive ((counterFull_iff _).2 hfull) b, takesFault_raise .lengthOverflow s⟩
  · have hroom : ¬counterFull s.nbytes = true := mt (counterFull_iff _).1 hroom
    have hcount : (s.nbytes + 1).toNat = s.nbytes.toNat + 1 := toNat_add_one_of_not_counterFull hroom
    refine ⟨_, exec_absorb_of_not_counterFull hactive hroom b, ⟨by simp, by simp⟩, rfl, ?_, fun a => ?_, ?_⟩
    · simp only [State.respond_nbytes, blockIfFull_nbytes, storeByte_nbytes, hcount]
    · simp only [State.respond_buf, blockIfFull_buf, storeByte_buf, Memory.read_write hwf, bufferFill]
    · simp only [State.respond_h, State.respond_buf, blockIfFull_h, blockIfFull_buf, storeByte_h, storeByte_nbytes,
        hcount]

end Sys2Proof.Machine
end

section
/-! PROOFS. The DIG window reads the digest (45_digest_assembler.md R150, 20_memory.md R54). -/

namespace Sys2Proof.Machine

theorem getElem?_toBE32 (w : Word) {j : Nat} (hj : j < 4) : (toBE32 w)[j]? = some (beByte 4 w j) := by
  rw [toBE32, List.getElem?_map, List.getElem?_range hj, Option.map_some]

/-- Each word gives four bytes, so byte `4 * i + j` of the rendering of a list of words is byte `j` of word `i`. -/
theorem getElem?_flatMap_toBE32 {j : Nat} (hj : j < 4) :
    ∀ (ws : List Word) (i : Nat), (ws.flatMap toBE32)[4 * i + j]? = ws[i]?.map (fun w => beByte 4 w j)
  | [], _ => rfl
  | w :: ws, 0 => by
    have hlt : 4 * 0 + j < (toBE32 w).length := by simpa [toBE32] using hj
    rw [List.flatMap_cons, List.getElem?_append_left hlt, Nat.mul_zero, Nat.zero_add, getElem?_toBE32 w hj]
    rfl
  | w :: ws, i + 1 => by
    have hlen : (toBE32 w).length = 4 := rfl
    have hindex : 4 * (i + 1) + j - 4 = 4 * i + j := by omega
    rw [List.flatMap_cons, List.getElem?_append_right (by omega), hlen, hindex, getElem?_flatMap_toBE32 hj ws i,
      List.getElem?_cons_succ]

theorem getElem?_digest (h : State8) (x : BitVec 5) : (digest h)[x.toNat]? = some (readDig h x) := by
  have hx := x.isLt
  have hword : h.toList[x.toNat / 4]? = some (h[x.toNat / 4]'(by omega)) := by
    rw [Vector.getElem?_toList, Vector.getElem?_eq_getElem]
  have hbyte := getElem?_flatMap_toBE32 (Nat.mod_lt x.toNat (by decide : 4 > 0)) h.toList (x.toNat / 4)
  rw [Nat.div_add_mod, hword] at hbyte
  exact hbyte

end Sys2Proof.Machine
end

section
/-! PROOFS. RDDIG (46_commands.md R167). -/

namespace Sys2Proof.Machine

theorem exec_rddig_of_phase_ne {s : State} (h : s.phase ≠ .done) (x : BitVec 5) :
    exec (.rddig x) s = .next (raise .protocolFault s) := if_pos h

theorem exec_rddig_of_done {s : State} (h : s.phase = .done) (x : BitVec 5) :
    exec (.rddig x) s = .next (s.respond (readDig s.h x)) := if_neg (not_not_intro h)

/-- Settles O26: the DIG window is the digest, and answering writes nothing else. -/
theorem rddigAnswersDigestByte : Obligations.RddigAnswersDigestByte := by
  intro x s
  refine ⟨fun hphase => ?_, fun hdone => ?_⟩
  · exact ⟨_, exec_rddig_of_phase_ne hphase x, takesFault_raise .protocolFault s⟩
  · exact ⟨_, readDig s.h x, exec_rddig_of_done hdone x, keepsControl_respond s _, keepsData_respond s _,
      getElem?_digest s.h x, rfl⟩

end Sys2Proof.Machine
end

section
/-! PROOFS. RDSTAT (46_commands.md R168) and the fields of STATUS (10_state.md R29). -/

namespace Sys2Proof.Machine

theorem exec_rdstat (s : State) : exec .rdstat s = .next (s.respond (statusByte s.err s.phase)) := rfl

/-- PHASE in bits 1..0, ERR in bits 3..2, and zeros above, FAULT among them. -/
theorem okResponse_statusByte_fields (e : ErrCode) (p : Phase) :
    (okResponse (statusByte e p)).extractLsb' 0 2 = p.code ∧
    (okResponse (statusByte e p)).extractLsb' 2 2 = e.code ∧
    (okResponse (statusByte e p)).extractLsb' 4 5 = 0 := by
  cases e <;> cases p <;> decide

/-- R168's values under the invariant of R28: outside ERROR the code is NONE, in ERROR it is not. -/
theorem okResponse_statusByte_of_inv {e : ErrCode} {p : Phase} (h : e = .none ↔ p ≠ .error) :
    (p = .idle → okResponse (statusByte e p) = 0x000) ∧ (p = .active → okResponse (statusByte e p) = 0x001) ∧
    (p = .done → okResponse (statusByte e p) = 0x002) ∧
    (p = .error →
      (e = .lengthOverflow ∧ okResponse (statusByte e p) = 0x007) ∨
      (e = .protocol ∧ okResponse (statusByte e p) = 0x00B) ∨
      (e = .illegalCmd ∧ okResponse (statusByte e p) = 0x00F)) := by
  have hnone : p ≠ .error → e = .none := h.2
  refine ⟨?_, ?_, ?_, ?_⟩
  · rintro rfl; rw [hnone (by decide)]; decide
  · rintro rfl; rw [hnone (by decide)]; decide
  · rintro rfl; rw [hnone (by decide)]; decide
  · rintro rfl
    cases e with
    | none => exact absurd rfl (h.1 rfl)
    | lengthOverflow => decide
    | protocol => decide
    | illegalCmd => decide

/-- Settles O27: the answer is STATUS, field by field, and answering writes nothing else. -/
theorem rdstatAnswersStatus : Obligations.RdstatAnswersStatus := by
  intro s
  obtain ⟨hphase, herr, hzero⟩ := okResponse_statusByte_fields s.err s.phase
  exact ⟨_, _, exec_rdstat s, keepsControl_respond s _, keepsData_respond s _, rfl, hphase, herr, hzero,
    fun ⟨_, hinv⟩ => okResponse_statusByte_of_inv hinv⟩

end Sys2Proof.Machine
end

section
/-! PROOFS. NOP (46_commands.md R163) and its one word (30_encoding.md R73). -/

namespace Sys2Proof

/-- OP and ARG are the whole word (R71). -/
theorem op_append_arg (w : CmdWord) : CmdWord.op w ++ CmdWord.arg w = w :=
  BitVec.extractLsb'_append_extractLsb'_eq_extractLsb' (by decide) |>.trans (BitVec.extractLsb'_eq_self)

theorem decodeBare_eq_command {arg : Byte} {i j : Instr} : decodeBare arg i = .command j ↔ arg = 0x00 ∧ i = j := by
  unfold decodeBare
  split
  · next harg => simp [harg]
  · next harg => exact ⟨(nomatch ·), fun h => absurd h.1 harg⟩

/-- Only OP = 0x0 leads to NOP, and only with ARG = 0x00. -/
theorem op_arg_eq_zero_of_decode_nop {w : CmdWord} (h : decode w = .command .nop) :
    CmdWord.op w = 0x0 ∧ CmdWord.arg w = 0x00 := by
  simp only [decode] at h
  split at h
  · next hop => exact ⟨hop, (decodeBare_eq_command.1 h).1⟩
  · split_ifs at h <;> simp [decodeBare_eq_command] at h

theorem decode_eq_nop_iff (w : CmdWord) : decode w = .command .nop ↔ w = 0x000 := by
  constructor
  · intro h
    obtain ⟨hop, harg⟩ := op_arg_eq_zero_of_decode_nop h
    rw [← op_append_arg w, hop, harg]
    decide
  · rintro rfl
    exact decode_word_nop

namespace Machine

theorem exec_nop (s : State) : exec .nop s = .next (s.respond 0x00) := rfl

/-- Settles O22: NOP only answers, and `decode_eq_nop_iff` gives its word. -/
theorem nopDoesNothing : Obligations.NopDoesNothing :=
  ⟨fun s => ⟨_, exec_nop s, keepsControl_respond s _, keepsData_respond s _, rfl⟩, decode_eq_nop_iff⟩

end Machine
end Sys2Proof
end

section
/-! PROOFS. INIT (46_commands.md R164). -/

namespace Sys2Proof.Machine

theorem exec_init (s : State) : exec .init s = .next ((initState s).respond 0x00) := rfl

/-- INIT writes constants, so a second INIT writes what is already there. -/
theorem initState_respond_initState (s : State) :
    (initState ((initState s).respond 0x00)).respond 0x00 = (initState s).respond 0x00 := rfl

/-- Settles O23: each register INIT writes holds its constant, and BUF is not among them. -/
theorem initBeginsComputation : Obligations.InitBeginsComputation := by
  intro s
  have hstatus : okResponse (statusByte .none .active) = 0x001 := by decide
  refine ⟨_, exec_init s, rfl, rfl, rfl, rfl, rfl, fun _ => rfl, ?_, ⟨_, exec_rdstat _, congrArg some hstatus⟩⟩
  rw [exec_init, initState_respond_initState]

end Sys2Proof.Machine
end

section
/-! PROOFS. Decoding inverted: a word that decodes to a command is that command's word (30_encoding.md R73, R77). -/

namespace Sys2Proof

/-- The four commands without operand: their word is OP, then ARG = 0x00 (R72). -/
theorem encode_of_decodeBare {w : CmdWord} {op : BitVec 4} {i j : Instr} (hop : CmdWord.op w = op)
    (hword : encode i = op ++ 0#8) (h : decodeBare (CmdWord.arg w) i = .command j) : encode j = w := by
  obtain ⟨harg, rfl⟩ := decodeBare_eq_command.1 h
  calc encode i = CmdWord.op w ++ CmdWord.arg w := by rw [hword, hop, harg]; rfl
    _ = w := op_append_arg w

/-- An ARG whose top three bits are 0 is its index, zero-extended (R72). -/
theorem append_index_of_top_eq_zero {arg : Byte} (h : arg.extractLsb' 5 3 = 0) : 0#3 ++ arg.extractLsb' 0 5 = arg :=
  calc 0#3 ++ arg.extractLsb' 0 5 = arg.extractLsb' 5 3 ++ arg.extractLsb' 0 5 := by rw [h]; rfl
    _ = arg := (BitVec.extractLsb'_append_extractLsb'_eq_extractLsb' (by decide)).trans BitVec.extractLsb'_eq_self

theorem encode_of_decode {w : CmdWord} {i : Instr} (h : decode w = .command i) : encode i = w := by
  simp only [decode] at h
  split_ifs at h with hnop hinit habsorb hfinal hrddig hindex hrdstat
  · exact encode_of_decodeBare hnop rfl h
  · exact encode_of_decodeBare hinit rfl h
  · obtain rfl := Decoded.command.inj h
    calc 0x2#4 ++ CmdWord.arg w = CmdWord.op w ++ CmdWord.arg w := by rw [habsorb]; rfl
      _ = w := op_append_arg w
  · exact encode_of_decodeBare hfinal rfl h
  · obtain rfl := Decoded.command.inj h
    calc 0x4#4 ++ (0#3 ++ (CmdWord.arg w).extractLsb' 0 5) = CmdWord.op w ++ CmdWord.arg w := by
          rw [append_index_of_top_eq_zero hindex, hrddig]; rfl
      _ = w := op_append_arg w
  · exact encode_of_decodeBare hrdstat rfl h

end Sys2Proof
end

section
/-! PROOFS. A reserved word raises IllegalCommand (60_exceptions.md R193). -/

namespace Sys2Proof.Machine

theorem performCommand_of_command {w : CmdWord} {i : Instr} (h : decode w = .command i) (s : State) :
    performCommand w s = exec i s := by
  rw [performCommand, h]

theorem performCommand_of_illegal {w : CmdWord} {why : Reserved} (h : decode w = .illegal why) (s : State) :
    performCommand w s = .next (raise .illegalCommand s) := by
  rw [performCommand, h]

/-- The next event is taken off the list and, when it is a word, performed (R161). -/
theorem step_of_pending_command {s : State} {w : CmdWord} {es : List Event} (h : s.pending = .command w :: es) :
    step s = performCommand w (s.setPending es) := by
  have htake : takeEvent s = some (.command w, s.setPending es) := takeEvent_eq_some.2 ⟨es, h, rfl⟩
  rw [step, htake]
  rfl

/-- Settles O18: the step is fault entry on the state without the event, and fault entry does not touch the events. -/
theorem reservedWordRaisesIllegalCommand : Obligations.ReservedWordRaisesIllegalCommand := by
  intro s w es why hpending hdecode
  refine ⟨raise .illegalCommand (s.setPending es), ?_, takesFault_raise .illegalCommand (s.setPending es), ?_⟩
  · rw [step_of_pending_command hpending, performCommand_of_illegal hdecode]
  · rw [raise_pending, State.setPending_pending]

end Sys2Proof.Machine
end

section
/-! PROOFS. What can happen in phase ERROR (60_exceptions.md R198, R199). -/

namespace Sys2Proof.Machine

theorem exec_final_of_phase_ne {s : State} (h : s.phase ≠ .active) : exec .final s = .next (raise .protocolFault s) :=
  if_pos h

/-- R199: in ERROR a fault, whichever it is, only reports the code already recorded. -/
theorem raise_of_error {s : State} (h : s.phase = .error) (f : CommandFault) :
    raise f s = s.setRsp (some (faultResponse s.err)) := by
  simp only [raise, recordFault, if_pos h]

/-- In ERROR a command begins a new message (INIT), answers only, or reports the recorded code (R162). -/
theorem exec_cases_of_error {i : Instr} {s t : State} (hs : s.phase = .error) (h : exec i s = .next t) :
    (i = .init ∧ t = (initState s).respond 0x00) ∨ (∃ d, t = s.respond d) ∨
      t = s.setRsp (some (faultResponse s.err)) := by
  have hactive : s.phase ≠ .active := by simp [hs]
  have hdone : s.phase ≠ .done := by simp [hs]
  cases i with
  | nop => exact .inr (.inl ⟨_, (Host.Outcome.next.inj h).symm⟩)
  | init => exact .inl ⟨rfl, (Host.Outcome.next.inj h).symm⟩
  | rdstat => exact .inr (.inl ⟨_, (Host.Outcome.next.inj h).symm⟩)
  | absorb b =>
    rw [exec_absorb_of_phase_ne hactive, raise_of_error hs] at h
    exact .inr (.inr (Host.Outcome.next.inj h).symm)
  | final =>
    rw [exec_final_of_phase_ne hactive, raise_of_error hs] at h
    exact .inr (.inr (Host.Outcome.next.inj h).symm)
  | rddig x =>
    rw [exec_rddig_of_phase_ne hdone, raise_of_error hs] at h
    exact .inr (.inr (Host.Outcome.next.inj h).symm)

/-- FAULT = 0 in the response of a command that was performed (R78). -/
theorem okResponse_fault (d : Byte) : (okResponse d).getLsbD 8 = false :=
  BitVec.getLsbD_append (x := 0#1) (y := d)

/-- In ERROR a response with FAULT = 1 comes from a refusal, which writes nothing but the response. -/
theorem performCommand_fault_of_error {s t : State} {w : CmdWord} {r : Response} (hs : s.phase = .error)
    (h : performCommand w s = .next t) (hr : t.rsp = some r) (hfault : r.getLsbD 8 = true) :
    t = s.setRsp (some (faultResponse s.err)) := by
  have not_ok : ∀ d, ¬some (okResponse d) = some r := by
    rintro d ⟨rfl⟩
    exact absurd hfault (by rw [okResponse_fault]; decide)
  cases hdecode : decode w with
  | command i =>
    rw [performCommand_of_command hdecode] at h
    obtain ⟨-, rfl⟩ | ⟨d, rfl⟩ | ht := exec_cases_of_error hs h
    · exact absurd hr (not_ok _)
    · exact absurd hr (not_ok d)
    · exact ht
  | illegal why =>
    rw [performCommand_of_illegal hdecode, raise_of_error hs] at h
    exact (Host.Outcome.next.inj h).symm

/-- Settles O30: the refusal writes the response alone, and that carries the code in ERR. -/
theorem firstFaultSticks : Obligations.FirstFaultSticks := by
  intro s t w r hs h hr hfault
  obtain rfl := performCommand_fault_of_error hs h hr hfault
  exact ⟨KeepsControl.refl s, KeepsData.refl s, (Option.some.inj hr).symm⟩

/-- Settles O31: of all a step can do from ERROR, only INIT and reset write PHASE; and INIT has the one word 0x100. -/
theorem errorLeftOnlyByInitOrReset : Obligations.ErrorLeftOnlyByInitOrReset := by
  intro s t hs hstep hleft
  obtain ⟨-, rfl⟩ | ⟨w, es, i, hpending, hdecode, hexec⟩ | ⟨w, es, why, -, -, rfl⟩ | ⟨d, es, hpending, rfl⟩ :=
    step_cases hstep
  · exact absurd hs hleft
  · obtain ⟨rfl, rfl⟩ | ⟨d, rfl⟩ | rfl := exec_cases_of_error (s := s.setPending es) hs hexec
    · have hword : w = 0x100 := (encode_of_decode hdecode).symm
      exact .inl ⟨es, hword ▸ hpending, rfl, rfl⟩
    · exact absurd hs hleft
    · exact absurd hs hleft
  · exact absurd (raise_phase _ _) hleft
  · exact .inr ⟨d, es, hpending, rfl, rfl⟩

end Sys2Proof.Machine
end

section
/-! PROOFS. Decode and Encode (30_encoding.md R77), the opcode table (R73) and the reserved words (R75). -/

namespace Sys2Proof

/-! OP and ARG of a word written as OP, then ARG (R71). -/

@[simp] theorem op_append (o : BitVec 4) (a : Byte) : CmdWord.op (o ++ a) = o :=
  BitVec.extractLsb'_append_eq_left

@[simp] theorem arg_append (o : BitVec 4) (a : Byte) : CmdWord.arg (o ++ a) = a :=
  BitVec.extractLsb'_append_eq_right

theorem decode_encode (i : Instr) : decode (encode i) = .command i := by
  cases i with
  | nop => exact decode_word_nop
  | init => exact decode_word_init
  | final => exact decode_word_final
  | rdstat => exact decode_word_rdstat
  | absorb b => simp [decode, encode]
  | rddig x =>
    have htop : (0#3 ++ x).extractLsb' 5 3 = 0#3 := BitVec.extractLsb'_append_eq_left
    have hindex : (0#3 ++ x).extractLsb' 0 5 = x := BitVec.extractLsb'_append_eq_right
    simp [decode, encode, htop, hindex]

/-- A byte appended below multiplies by 2^8. -/
theorem toNat_append_byte {k : Nat} (x : BitVec k) (b : Byte) : (x ++ b).toNat = x.toNat * 2 ^ 8 + b.toNat := by
  rw [BitVec.toNat_append, ← Nat.shiftLeft_add_eq_or_of_lt b.isLt, Nat.shiftLeft_eq]

/-- Settles O10: `decode_encode`, its converse `encode_of_decode`, and the table row by row. -/
theorem decodeAndEncodeAgree : Obligations.DecodeAndEncodeAgree := by
  refine ⟨decode_encode, fun _ _ => encode_of_decode, rfl, rfl, rfl, rfl, fun b => ?_, fun x => ?_⟩
  · exact toNat_append_byte 0x2#4 b
  · have hindex : (0#3 ++ x).toNat = x.toNat := by
      rw [BitVec.toNat_append, BitVec.toNat_zero, Nat.zero_shiftLeft, Nat.zero_or]
    exact hindex ▸ toNat_append_byte 0x4#4 (0#3 ++ x)

/-! Rows of the table: each mask covers OP, so a row fixes OP. -/

theorem op_eq_of_selects {r : OpcodeRow} {w : CmdWord} (hr : r ∈ opcodeTable) (h : r.selects w = true) :
    CmdWord.op w = CmdWord.op r.pattern := by
  have hmask : ∀ q ∈ opcodeTable, CmdWord.op q.mask = 0xF#4 := by decide
  have hand : CmdWord.op (w &&& r.mask) = CmdWord.op w &&& CmdWord.op r.mask := BitVec.extractLsb'_and
  have hsel : w &&& r.mask = r.pattern := beq_iff_eq.1 h
  rw [← hsel, hand, hmask r hr]
  exact (BitVec.and_allOnes (x := CmdWord.op w)).symm

theorem eq_pattern_of_selects {r : OpcodeRow} {w : CmdWord} (hmask : r.mask = 0xFFF) (h : r.selects w = true) :
    w = r.pattern := by
  have hsel : w &&& r.mask = r.pattern := beq_iff_eq.1 h
  rw [← hsel, hmask]
  exact (BitVec.and_allOnes (x := w)).symm

/-- RDDIG's mask also covers ARG[7:5]. -/
theorem index_top_of_selects_rddig {w : CmdWord} (h : rowRddig.selects w = true) :
    (CmdWord.arg w).extractLsb' 5 3 = 0 := by
  have hsel : w &&& 0xFE0 = 0x400 := beq_iff_eq.1 h
  have hand : (CmdWord.arg (w &&& 0xFE0)).extractLsb' 5 3 = (CmdWord.arg w).extractLsb' 5 3 &&& 0x7#3 := by
    rw [CmdWord.arg, BitVec.extractLsb'_and, BitVec.extractLsb'_and]; rfl
  rw [hsel] at hand
  exact ((BitVec.and_allOnes (x := (CmdWord.arg w).extractLsb' 5 3)).symm.trans hand.symm)

theorem exists_decode_of_selects {r : OpcodeRow} {w : CmdWord} (hr : r ∈ opcodeTable) (h : r.selects w = true) :
    ∃ i, decode w = .command i := by
  have hop := op_eq_of_selects hr h
  simp only [opcodeTable, List.mem_cons, List.not_mem_nil, or_false] at hr
  obtain rfl | rfl | rfl | rfl | rfl | rfl := hr
  · exact ⟨.nop, eq_pattern_of_selects rfl h ▸ decode_word_nop⟩
  · exact ⟨.init, eq_pattern_of_selects rfl h ▸ decode_word_init⟩
  · have hop : CmdWord.op w = 0x2 := hop
    exact ⟨.absorb (CmdWord.arg w), by simp [decode, hop]⟩
  · exact ⟨.final, eq_pattern_of_selects rfl h ▸ decode_word_final⟩
  · have hop : CmdWord.op w = 0x4 := hop
    exact ⟨.rddig ((CmdWord.arg w).extractLsb' 0 5), by simp [decode, hop, index_top_of_selects_rddig h]⟩
  · exact ⟨.rdstat, eq_pattern_of_selects rfl h ▸ decode_word_rdstat⟩

theorem encodingRow (i : Instr) : Laws.EncodingRow.Statement i := by
  cases i with
  | nop => exact Laws.EncodingRow.nop
  | init => exact Laws.EncodingRow.init
  | absorb b => exact Laws.EncodingRow.absorb b
  | final => exact Laws.EncodingRow.final
  | rddig x => exact Laws.EncodingRow.rddig x
  | rdstat => exact Laws.EncodingRow.rdstat

theorem row_mem_opcodeTable (i : Instr) : i.row ∈ opcodeTable := by
  cases i <;> simp [Instr.row, opcodeTable]

theorem wellFormed_iff (w : CmdWord) : CmdWord.wellFormed w = true ↔ ∃ i, decode w = .command i := by
  constructor
  · intro h
    obtain ⟨r, hr, hsel⟩ := List.any_eq_true.1 h
    exact exists_decode_of_selects hr hsel
  · rintro ⟨i, h⟩
    exact encode_of_decode h ▸ (encodingRow i).2

/-- Settles O11: a command's word is its row's, and two rows of one OP are one row. -/
theorem decodeFollowsOpcodeTable : Obligations.DecodeFollowsOpcodeTable := by
  refine ⟨wellFormed_iff, fun w i h => ?_, fun w r q hr hq hrw hqw => ?_⟩
  · exact ⟨encode_of_decode h ▸ (encodingRow i).1, row_mem_opcodeTable i⟩
  · have hdistinct : ∀ r ∈ opcodeTable, ∀ q ∈ opcodeTable, CmdWord.op r.pattern = CmdWord.op q.pattern → r = q := by
      decide
    exact hdistinct r hr q hq ((op_eq_of_selects hr hrw).symm.trans (op_eq_of_selects hq hqw))

/-! The reserved words by number. -/

theorem toNat_op (w : CmdWord) : (CmdWord.op w).toNat = w.toNat / 256 := by
  have hlt := w.isLt
  rw [CmdWord.op, BitVec.extractLsb'_toNat, Nat.shiftRight_eq_div_pow]
  omega

theorem toNat_arg (w : CmdWord) : (CmdWord.arg w).toNat = w.toNat % 256 := by
  rw [CmdWord.arg, BitVec.extractLsb'_toNat, Nat.shiftRight_zero]

theorem decodeBare_eq_illegal {arg : Byte} {i : Instr} :
    (∃ why, decodeBare arg i = .illegal why) ↔ arg ≠ 0x00 := by
  unfold decodeBare
  split
  · next harg => simp [harg]
  · next harg => exact ⟨fun _ => harg, fun _ => ⟨_, rfl⟩⟩

theorem index_top_eq_zero_iff (a : Byte) : a.extractLsb' 5 3 = 0 ↔ a.toNat < 0x20 := by
  have hlt := a.isLt
  rw [← BitVec.toNat_inj, BitVec.extractLsb'_toNat, Nat.shiftRight_eq_div_pow]
  change a.toNat / 2 ^ 5 % 2 ^ 3 = 0 ↔ _
  omega

/-- R75 on the fields OP and ARG. -/
theorem decode_eq_illegal_iff (w : CmdWord) : (∃ why, decode w = .illegal why) ↔
    6 ≤ (CmdWord.op w).toNat ∨
    (((CmdWord.op w).toNat = 0 ∨ (CmdWord.op w).toNat = 1 ∨ (CmdWord.op w).toNat = 3 ∨ (CmdWord.op w).toNat = 5) ∧
      CmdWord.arg w ≠ 0x00) ∨
    ((CmdWord.op w).toNat = 4 ∧ 0x20 ≤ (CmdWord.arg w).toNat) := by
  simp only [decode]
  split_ifs with hnop hinit habsorb hfinal hrddig hindex hrdstat
  · simp [hnop, decodeBare_eq_illegal]
  · simp [hinit, decodeBare_eq_illegal]
  · simp [habsorb]
  · simp [hfinal, decodeBare_eq_illegal]
  · simp [hrddig, (index_top_eq_zero_iff _).1 hindex]
  · simp [hrddig, Nat.not_lt.1 (mt (index_top_eq_zero_iff _).2 hindex)]
  · simp [hrdstat, decodeBare_eq_illegal]
  · have hopcode : 6 ≤ (CmdWord.op w).toNat := by
      bv_omega
    simp [hopcode]

/-- R75 on the number of a word. -/
def isReservedNumber (n : Nat) : Bool :=
  decide (6 ≤ n / 256 ∨ ((n / 256 = 0 ∨ n / 256 = 1 ∨ n / 256 = 3 ∨ n / 256 = 5) ∧ n % 256 ≠ 0) ∨
    (n / 256 = 4 ∧ 0x20 ≤ n % 256))

theorem isReservedNumber_iff (w : CmdWord) : isReservedNumber w.toNat = true ↔ ∃ why, decode w = .illegal why := by
  rw [decode_eq_illegal_iff, toNat_op, toNat_arg, Ne, ← BitVec.toNat_inj, toNat_arg]
  exact decide_eq_true_iff

theorem wellFormed_eq_not_isReservedNumber {n : Nat} (hn : n < 4096) :
    CmdWord.wellFormed (BitVec.ofNat 12 n) = !isReservedNumber n := by
  have hword : (BitVec.ofNat 12 n).toNat = n := by
    rw [BitVec.toNat_ofNat, Nat.mod_eq_of_lt hn]
  rw [Bool.eq_iff_iff, wellFormed_iff, Bool.not_eq_true', ← Bool.not_eq_true, ← congrArg isReservedNumber hword,
    isReservedNumber_iff]
  cases decode (BitVec.ofNat 12 n) <;> simp

theorem countP_isReservedNumber : (List.range 4096).countP isReservedNumber = 3804 := by
  decide +kernel

/-- Settles O12: R75's classes by number, then the reserved numbers counted, and the commands as the others. -/
theorem reservedWordsAreIllegal : Obligations.ReservedWordsAreIllegal := by
  have hmem : ∀ n ∈ List.range 4096, CmdWord.wellFormed (BitVec.ofNat 12 n) = !isReservedNumber n := fun n hn =>
    wellFormed_eq_not_isReservedNumber (List.mem_range.1 hn)
  refine ⟨fun w => (isReservedNumber_iff w).symm.trans decide_eq_true_iff, ?_, ?_⟩
  · rw [List.filter_congr hmem, ← List.countP_eq_length_filter]
    have hsum := List.length_eq_countP_add_countP isReservedNumber (l := List.range 4096)
    simp only [List.length_range, countP_isReservedNumber, Bool.not_eq_true, Bool.decide_eq_false] at hsum
    omega
  · have hreserved : ∀ n ∈ List.range 4096, (!CmdWord.wellFormed (BitVec.ofNat 12 n)) = isReservedNumber n :=
      fun n hn => by rw [hmem n hn, Bool.not_not]
    rw [List.filter_congr hreserved, ← List.countP_eq_length_filter, countP_isReservedNumber]

/-- Settles O13: the words the model's decoder tests, and the ends of the operands' ranges by `decode_encode`. -/
theorem specWordsDecode : Obligations.SpecWordsDecode :=
  ⟨decode_word_nop, decode_word_init, decode_encode (.absorb 0xFF), decode_word_final, decode_encode (.rddig 31),
    decode_word_rdstat⟩

end Sys2Proof
end

section
/-! PROOFS. FINAL (46_commands.md R166). -/

namespace Sys2Proof.Machine

theorem exec_final_of_active {s : State} (h : s.phase = .active) :
    exec .final s = .next (((finishTail s).setPhase .done).respond 0x00) := if_neg (not_not_intro h)

theorem finishTail_of_fill_le {s : State} (h : bufferFill s.nbytes ≤ 55) : finishTail s = block (padTail1 s) :=
  if_neg (by rw [tailTakesTwoBlocks, decide_eq_true_eq]; omega)

theorem finishTail_of_lt_fill {s : State} (h : 55 < bufferFill s.nbytes) :
    finishTail s = block (padTail2 (block (padTail1 s))) :=
  if_pos (decide_eq_true h)

@[simp] theorem padTail1_phase (s : State) : (padTail1 s).phase = s.phase := by rw [padTail1, State.setBuf_phase]
@[simp] theorem padTail1_err (s : State) : (padTail1 s).err = s.err := by rw [padTail1, State.setBuf_err]
@[simp] theorem padTail1_h (s : State) : (padTail1 s).h = s.h := by rw [padTail1, State.setBuf_h]
@[simp] theorem padTail1_nbytes (s : State) : (padTail1 s).nbytes = s.nbytes := by rw [padTail1, State.setBuf_nbytes]
@[simp] theorem padTail1_buf (s : State) : (padTail1 s).buf = padTail1Buf s.nbytes s.buf := by
  rw [padTail1, State.setBuf_buf]
@[simp] theorem padTail1_pending (s : State) : (padTail1 s).pending = s.pending := by
  rw [padTail1, State.setBuf_pending]

@[simp] theorem padTail2_phase (s : State) : (padTail2 s).phase = s.phase := by rw [padTail2, State.setBuf_phase]
@[simp] theorem padTail2_err (s : State) : (padTail2 s).err = s.err := by rw [padTail2, State.setBuf_err]
@[simp] theorem padTail2_h (s : State) : (padTail2 s).h = s.h := by rw [padTail2, State.setBuf_h]
@[simp] theorem padTail2_nbytes (s : State) : (padTail2 s).nbytes = s.nbytes := by rw [padTail2, State.setBuf_nbytes]
@[simp] theorem padTail2_buf (s : State) : (padTail2 s).buf = padTail2Buf s.nbytes s.buf := by
  rw [padTail2, State.setBuf_buf]
@[simp] theorem padTail2_pending (s : State) : (padTail2 s).pending = s.pending := by
  rw [padTail2, State.setBuf_pending]

/-! FINAL's work on the tail writes H and BUF alone of the command-level state. -/

@[simp] theorem finishTail_phase (s : State) : (finishTail s).phase = s.phase := by
  unfold finishTail; split <;> simp
@[simp] theorem finishTail_err (s : State) : (finishTail s).err = s.err := by
  unfold finishTail; split <;> simp
@[simp] theorem finishTail_nbytes (s : State) : (finishTail s).nbytes = s.nbytes := by
  unfold finishTail; split <;> simp
@[simp] theorem finishTail_pending (s : State) : (finishTail s).pending = s.pending := by
  unfold finishTail; split <;> simp

theorem finishTail_h_of_fill_le {s : State} (h : bufferFill s.nbytes ≤ 55) :
    (finishTail s).h = compressBlock s.h (Memory.block (padTail1Buf s.nbytes s.buf)) := by
  rw [finishTail_of_fill_le h, block_h, padTail1_h, padTail1_buf]

theorem finishTail_h_of_lt_fill {s : State} (h : 55 < bufferFill s.nbytes) :
    (finishTail s).h = compressBlock (compressBlock s.h (Memory.block (padTail1Buf s.nbytes s.buf)))
      (Memory.block (padTail2Buf s.nbytes (padTail1Buf s.nbytes s.buf))) := by
  simp only [finishTail_of_lt_fill h, block_h, padTail2_h, padTail2_buf, block_buf, block_nbytes, padTail1_h,
    padTail1_buf, padTail1_nbytes]

theorem finishTail_buf_of_fill_le {s : State} (h : bufferFill s.nbytes ≤ 55) :
    (finishTail s).buf = padTail1Buf s.nbytes s.buf := by
  rw [finishTail_of_fill_le h, block_buf, padTail1_buf]

theorem finishTail_buf_of_lt_fill {s : State} (h : 55 < bufferFill s.nbytes) :
    (finishTail s).buf = padTail2Buf s.nbytes (padTail1Buf s.nbytes s.buf) := by
  simp only [finishTail_of_lt_fill h, padTail2_buf, block_buf, block_nbytes, padTail1_buf, padTail1_nbytes]

/-- Settles O25: fault entry outside ACTIVE, and in ACTIVE one tail block or two by the buffer fill. -/
theorem finalCompressesTail : Obligations.FinalCompressesTail := by
  intro s
  refine ⟨fun hphase => ?_, fun hactive => ?_⟩
  · exact ⟨_, exec_final_of_phase_ne hphase, takesFault_raise .protocolFault s⟩
  · refine ⟨_, exec_final_of_active hactive, rfl, finishTail_err s, rfl, finishTail_nbytes s, fun hr => ?_,
      fun hr => ?_⟩
    · exact ⟨finishTail_h_of_fill_le hr, fun a => congrArg (Memory.read · a) (finishTail_buf_of_fill_le hr)⟩
    · exact ⟨finishTail_h_of_lt_fill hr, fun a => congrArg (Memory.read · a) (finishTail_buf_of_lt_fill hr)⟩

/-- R94 byte by byte. -/
theorem read_padTail2Buf {m : Memory} (hm : Memory.wf m = true) (n : U61) (a : Nat) :
    Memory.read (padTail2Buf n m) a =
      if a < 56 then 0x00 else if a < 64 then (lengthField n).getD (a - 56) 0 else Memory.read m a := by
  have hzeros := Memory.wf_writeBytes (bs := List.replicate 56 0x00) (a := 0) hm (by simp)
  rw [padTail2Buf, Memory.read_writeBytes_lengthField hzeros, Memory.read_writeBytes_zeros hm (by decide)]
  by_cases hlow : a < 56
  · rw [if_neg (by omega), if_pos (by omega), if_pos hlow]
  · by_cases hhigh : a < 64
    · rw [if_pos (by omega), if_neg hlow, if_pos hhigh]
    · rw [if_neg (by omega), if_neg (by omega), if_neg hlow, if_neg hhigh]

/-- Settles O42: PADTAIL2 only sets BUF, and BUF then reads as `read_padTail2Buf` says. -/
theorem secondTailBlockIsZerosAndLength : Obligations.SecondTailBlockIsZerosAndLength := by
  intro s hwf
  refine ⟨padTail2_nbytes s, padTail2_h s, ⟨padTail2_phase s, padTail2_err s⟩, fun a => ?_⟩
  rw [← bitLength_eq_ofNat, padTail2_buf]
  exact read_padTail2Buf hwf s.nbytes a

end Sys2Proof.Machine
end

section
/-! PROOFS. The step (46_commands.md R161): it is total, and what each event makes of it. -/

namespace Sys2Proof.Machine

theorem exists_exec_eq_next (i : Instr) (s : State) : ∃ t, exec i s = .next t := by
  cases i with
  | nop => exact ⟨_, exec_nop s⟩
  | init => exact ⟨_, exec_init s⟩
  | rdstat => exact ⟨_, exec_rdstat s⟩
  | absorb b =>
    by_cases hphase : s.phase = .active
    · by_cases hfull : counterFull s.nbytes = true
      · exact ⟨_, exec_absorb_of_counterFull hphase hfull b⟩
      · exact ⟨_, exec_absorb_of_not_counterFull hphase hfull b⟩
    · exact ⟨_, exec_absorb_of_phase_ne hphase b⟩
  | final =>
    by_cases hphase : s.phase = .active
    · exact ⟨_, exec_final_of_active hphase⟩
    · exact ⟨_, exec_final_of_phase_ne hphase⟩
  | rddig x =>
    by_cases hphase : s.phase = .done
    · exact ⟨_, exec_rddig_of_done hphase x⟩
    · exact ⟨_, exec_rddig_of_phase_ne hphase x⟩

/-- NOP, RDDIG and RDSTAT only answer (R163, R167, R168). -/
def isReader : Instr → Bool
  | .nop | .rddig _ | .rdstat => true
  | _ => false

/-- `exec_cases` by what is written: an answer alone, INIT's, ABSORB's or FINAL's work, or fault entry. -/
theorem exec_effects {i : Instr} {s t : State} (h : exec i s = .next t) :
    (isReader i = true ∧ ∃ d, t = s.respond d) ∨
    (i = .init ∧ t = (initState s).respond 0x00) ∨
    (∃ b, i = .absorb b ∧ s.phase = .active ∧ ¬counterFull s.nbytes = true ∧
      t = (blockIfFull (storeByte b s)).respond 0x00) ∨
    (i = .final ∧ s.phase = .active ∧ t = ((finishTail s).setPhase .done).respond 0x00) ∨
    ∃ f, t = raise f s := by
  obtain ⟨rfl, ht⟩ | hinit | ⟨_, -, -, ht⟩ | ⟨_, -, -, -, ht⟩ | ⟨b, hi, hactive, hroom, ht⟩ | ⟨-, -, ht⟩ | hfinal |
    ⟨_, -, -, ht⟩ | ⟨_, rfl, -, ht⟩ | ⟨rfl, ht⟩ := exec_cases h
  · exact .inl ⟨rfl, _, ht⟩
  · exact .inr (.inl hinit)
  · exact .inr (.inr (.inr (.inr ⟨_, ht⟩)))
  · exact .inr (.inr (.inr (.inr ⟨_, ht⟩)))
  · exact .inr (.inr (.inl ⟨b, hi, hactive, Bool.eq_false_iff.1 hroom, ht⟩))
  · exact .inr (.inr (.inr (.inr ⟨_, ht⟩)))
  · exact .inr (.inr (.inr (.inl hfinal)))
  · exact .inr (.inr (.inr (.inr ⟨_, ht⟩)))
  · exact .inl ⟨rfl, _, ht⟩
  · exact .inl ⟨rfl, _, ht⟩

theorem exists_performCommand_eq_next (w : CmdWord) (s : State) : ∃ t, performCommand w s = .next t := by
  cases hdecode : decode w with
  | command i => exact performCommand_of_command hdecode s ▸ exists_exec_eq_next i s
  | illegal why => exact ⟨_, performCommand_of_illegal hdecode s⟩

theorem step_of_pending_nil {s : State} (h : s.pending = []) : step s = .next (awaitEvent s) := by
  rw [step, takeEvent_eq_none.2 h]

theorem step_of_pending_reset {s : State} {d : ResetData} {es : List Event} (h : s.pending = .reset d :: es) :
    step s = .next (resetEvent d (s.setPending es)) := by
  rw [step, takeEvent_eq_some.2 ⟨es, h, rfl⟩]
  rfl

/-- Settles O21: no event to take, a reset, and a word each answer a next state. -/
theorem everyStepHasANextState : Obligations.EveryStepHasANextState := by
  intro s
  match hpending : s.pending with
  | [] => exact ⟨_, step_of_pending_nil hpending⟩
  | .reset d :: es => exact ⟨_, step_of_pending_reset hpending⟩
  | .command w :: es => exact step_of_pending_command hpending ▸ exists_performCommand_eq_next w _

/-- Settles O15: the fields R220 fixes in `State.reset`. -/
theorem resetStateIsIdle : Obligations.ResetStateIsIdle := ⟨rfl, rfl, by decide, rfl⟩

/-- Settles O16: the reset event writes the event's contents, and BUF holds the event's block. -/
theorem resetEventFromAnyState : Obligations.ResetEventFromAnyState := fun _ d _ hpending =>
  ⟨_, step_of_pending_reset hpending, rfl, rfl, rfl, rfl, rfl, rfl, Memory.read_ofBlock d.buf⟩

/-- Settles O17: the event is a word, and the word's decoding is the command. -/
theorem stepRunsDecodedCommand : Obligations.StepRunsDecodedCommand := fun _ _ _ _ hpending hdecode =>
  (step_of_pending_command hpending).trans (performCommand_of_command hdecode _)

/-- Settles O19: without an event only the response is written. -/
theorem blockWaitsWithoutEvent : Obligations.BlockWaitsWithoutEvent := fun s hpending =>
  ⟨_, step_of_pending_nil hpending, KeepsControl.refl s, KeepsData.refl s, rfl, hpending⟩

theorem decode_of_decodeTableWord {nbits w : Nat} {i : Instr} (h : decodeTableWord nbits w = some i) :
    decode (BitVec.ofNat 12 (w % 2 ^ nbits)) = .command i := by
  unfold decodeTableWord at h
  split at h
  · cases hdecode : decode (BitVec.ofNat 12 (w % 2 ^ nbits)) with
    | command j => rw [hdecode] at h; exact congrArg Decoded.command (Option.some.inj h)
    | illegal why => rw [hdecode] at h; cases h
  · cases h

/-- Settles O20: the word placed is the next event, and taking it gives back the state it was placed in. -/
theorem fetchWordIsNextCommand : Obligations.FetchWordIsNextCommand := by
  intro s nbits w i h
  have hpending : (s.withFetchWord nbits w).pending = .command (BitVec.ofNat 12 (w % 2 ^ nbits)) :: s.pending := rfl
  exact stepRunsDecodedCommand _ _ _ _ hpending (decode_of_decodeTableWord h)

end Sys2Proof.Machine
end

section
/-! PROOFS. Performed or refused: the response (30_encoding.md R78), the legality table (46_commands.md R162) and the
precedence of faults (60_exceptions.md R195). -/

namespace Sys2Proof.Machine

/-- FAULT = 1 in the response of a fault (R78). -/
theorem faultResponse_fault (e : ErrCode) : (faultResponse e).getLsbD 8 = true := by
  cases e <;> decide

theorem raise_rsp_of_ne_error {s : State} (h : s.phase ≠ .error) (f : CommandFault) :
    (raise f s).rsp = some (faultResponse f.code) := by
  rw [raise_rsp, raise_err, if_neg h]

/-- A command answers either FAULT = 0, or by fault entry and nothing else (R196). -/
theorem exec_performed_or_raise {i : Instr} {s t : State} (h : exec i s = .next t) :
    (∃ d, t.rsp = some (okResponse d)) ∨ ∃ f, t = raise f s := by
  obtain ⟨-, _, rfl⟩ | ⟨-, rfl⟩ | ⟨_, -, -, -, rfl⟩ | ⟨-, -, rfl⟩ | hraise := exec_effects h
  · exact .inl ⟨_, rfl⟩
  · exact .inl ⟨_, rfl⟩
  · exact .inl ⟨_, rfl⟩
  · exact .inl ⟨_, rfl⟩
  · exact .inr hraise

/-- A word answers either FAULT = 0, or by fault entry and nothing else. -/
theorem performCommand_performed_or_raise {w : CmdWord} {s t : State} (h : performCommand w s = .next t) :
    (∃ d, t.rsp = some (okResponse d)) ∨ ∃ f, t = raise f s := by
  cases hdecode : decode w with
  | command i => exact exec_performed_or_raise (performCommand_of_command hdecode s ▸ h)
  | illegal why =>
    rw [performCommand_of_illegal hdecode] at h
    exact .inr ⟨_, (Host.Outcome.next.inj h).symm⟩

/-- Every word gets exactly one response (R161). -/
theorem exists_rsp_of_performCommand {w : CmdWord} {s t : State} (h : performCommand w s = .next t) :
    ∃ r, t.rsp = some r := by
  obtain ⟨d, hrsp⟩ | ⟨f, rfl⟩ := performCommand_performed_or_raise h
  · exact ⟨_, hrsp⟩
  · exact ⟨_, raise_rsp f s⟩

/-- Settles O14: FAULT and DATA are the two fields of a performed command's response; the faults' by their codes. -/
theorem responseWordLayout : Obligations.ResponseWordLayout :=
  ⟨fun d => ⟨okResponse_fault d, BitVec.extractLsb'_append_eq_right⟩, by decide, by decide, by decide⟩

/-- R162 for one command in one state: the table decides the FAULT bit and the new phase. -/
def AnswersByTable (i : Instr) (s : State) : Prop :=
  ∃ t r, exec i s = .next t ∧ t.rsp = some r ∧
    (r.getLsbD 8 = false ↔ legalIn i s.phase = true ∧ ¬((∃ b, i = .absorb b) ∧ s.nbytes.toNat = 2 ^ 61 - 1)) ∧
    (r.getLsbD 8 = true → t.phase = .error) ∧
    (r.getLsbD 8 = false → t.phase = if i = .init then .active else if i = .final then .done else s.phase)

theorem answersByTable_of_performed {i : Instr} {s t : State} {d : Byte} (hexec : exec i s = .next t)
    (hrsp : t.rsp = some (okResponse d)) (hlegal : legalIn i s.phase = true)
    (hroom : ¬((∃ b, i = .absorb b) ∧ s.nbytes.toNat = 2 ^ 61 - 1))
    (hphase : t.phase = if i = .init then .active else if i = .final then .done else s.phase) : AnswersByTable i s :=
  ⟨t, okResponse d, hexec, hrsp, ⟨fun _ => ⟨hlegal, hroom⟩, fun _ => okResponse_fault d⟩,
    fun hfault => absurd ((okResponse_fault d).symm.trans hfault) (by decide), fun _ => hphase⟩

theorem answersByTable_of_refused {i : Instr} {s : State} {f : CommandFault} (hexec : exec i s = .next (raise f s))
    (hrefused : legalIn i s.phase = false ∨ ((∃ b, i = .absorb b) ∧ s.nbytes.toNat = 2 ^ 61 - 1)) :
    AnswersByTable i s := by
  have hfault := faultResponse_fault (raise f s).err
  refine ⟨_, _, hexec, raise_rsp f s, ⟨fun hok => ?_, fun ⟨hlegal, hroom⟩ => ?_⟩, fun _ => raise_phase f s,
    fun hok => ?_⟩
  · exact absurd (hok.symm.trans hfault) (by decide)
  · obtain hillegal | hfull := hrefused
    · exact absurd (hlegal.symm.trans hillegal) (by decide)
    · exact absurd hfull hroom
  · exact absurd (hok.symm.trans hfault) (by decide)

/-- ABSORB and FINAL are allowed in ACTIVE only, RDDIG in DONE only (R162). -/
theorem legalIn_absorb_eq_false {p : Phase} (h : p ≠ .active) (b : Byte) : legalIn (.absorb b) p = false := by
  cases p with
  | active => exact absurd rfl h
  | idle | done | error => rfl

theorem legalIn_final_eq_false {p : Phase} (h : p ≠ .active) : legalIn .final p = false := by
  cases p with
  | active => exact absurd rfl h
  | idle | done | error => rfl

theorem legalIn_rddig_eq_false {p : Phase} (h : p ≠ .done) (x : BitVec 5) : legalIn (.rddig x) p = false := by
  cases p with
  | done => exact absurd rfl h
  | idle | active | error => rfl

theorem answersByTable (i : Instr) (s : State) : AnswersByTable i s := by
  cases i with
  | nop => exact answersByTable_of_performed (exec_nop s) rfl rfl (by simp) rfl
  | init => exact answersByTable_of_performed (exec_init s) rfl rfl (by simp) rfl
  | rdstat => exact answersByTable_of_performed (exec_rdstat s) rfl rfl (by simp) rfl
  | absorb b =>
    by_cases hphase : s.phase = .active
    · by_cases hfull : counterFull s.nbytes = true
      · exact answersByTable_of_refused (exec_absorb_of_counterFull hphase hfull b)
          (.inr ⟨⟨b, rfl⟩, (counterFull_iff _).1 hfull⟩)
      · exact answersByTable_of_performed (exec_absorb_of_not_counterFull hphase hfull b) rfl (by rw [hphase]; rfl)
          (fun h => hfull ((counterFull_iff _).2 h.2)) (by simp)
    · exact answersByTable_of_refused (exec_absorb_of_phase_ne hphase b) (.inl (legalIn_absorb_eq_false hphase b))
  | final =>
    by_cases hphase : s.phase = .active
    · exact answersByTable_of_performed (exec_final_of_active hphase) rfl (by rw [hphase]; rfl) (by simp) (by simp)
    · exact answersByTable_of_refused (exec_final_of_phase_ne hphase) (.inl (legalIn_final_eq_false hphase))
  | rddig x =>
    by_cases hphase : s.phase = .done
    · exact answersByTable_of_performed (exec_rddig_of_done hphase x) rfl (by rw [hphase]; rfl) (by simp) (by simp)
    · exact answersByTable_of_refused (exec_rddig_of_phase_ne hphase x) (.inl (legalIn_rddig_eq_false hphase x))

/-- Settles O28: `answersByTable`, command by command. -/
theorem legalityTableDecidesResponse : Obligations.LegalityTableDecidesResponse := answersByTable

/-- Settles O29: decoding comes before the phase, and the phase before the counter. -/
theorem faultPrecedence : Obligations.FaultPrecedence := by
  refine ⟨fun s w why hphase hdecode => ?_, fun s b hphase hactive _ => ?_⟩
  · exact ⟨_, performCommand_of_illegal hdecode s, raise_phase _ s, (raise_err _ s).trans (if_neg hphase),
      raise_rsp_of_ne_error hphase .illegalCommand⟩
  · exact ⟨_, (performCommand_of_command (decode_encode _) s).trans (exec_absorb_of_phase_ne hactive b),
      raise_phase _ s, (raise_err _ s).trans (if_neg hphase), raise_rsp_of_ne_error hphase .protocolFault⟩

end Sys2Proof.Machine
end

section
/-! PROOFS. The invariant of ERR and PHASE (10_state.md R28) and the form of BUF (20_memory.md R50). -/

namespace Sys2Proof.Machine

theorem CommandFault.code_ne_none (f : CommandFault) : f.code ≠ .none := by
  cases f <;> decide

/-- The invariant speaks of BUF, ERR and PHASE alone, and a response or the events to come are none of them. -/
theorem inv_respond {s : State} (hs : s.Inv) (d : Byte) : (s.respond d).Inv := hs

/-- Fault entry leaves a code in ERR: the first fault's, which the invariant keeps, or its own (R196). -/
theorem inv_raise {s : State} (hs : s.Inv) (f : CommandFault) : (raise f s).Inv := by
  obtain ⟨hwf, herr⟩ := hs
  refine ⟨by rw [raise_buf]; exact hwf, fun hnone => ?_, fun hphase => absurd (raise_phase f s) hphase⟩
  rw [raise_err] at hnone
  split at hnone
  · next herror => exact absurd herror (herr.1 hnone)
  · exact absurd hnone f.code_ne_none

theorem inv_initState {s : State} (hs : s.Inv) : (initState s).Inv := ⟨hs.1, by simp [initState]⟩

theorem wf_storeByte {s : State} (hwf : Memory.wf s.buf = true) (b : Byte) : Memory.wf (storeByte b s).buf = true :=
  Memory.wf_write hwf (bufferFill_lt s.nbytes) b

theorem inv_absorbed {s : State} (hs : s.Inv) (b : Byte) : (blockIfFull (storeByte b s)).Inv := by
  obtain ⟨hwf, herr⟩ := hs
  exact ⟨by rw [blockIfFull_buf]; exact wf_storeByte hwf b, by simpa using herr⟩

theorem wf_finishTail {s : State} (hwf : Memory.wf s.buf = true) : Memory.wf (finishTail s).buf = true := by
  rcases Nat.lt_or_ge 55 (bufferFill s.nbytes) with hr | hr
  · rw [finishTail_buf_of_lt_fill hr]
    exact wf_padTail2Buf (wf_padTail1Buf hwf s.nbytes) s.nbytes
  · rw [finishTail_buf_of_fill_le hr]
    exact wf_padTail1Buf hwf s.nbytes

/-- FINAL leaves ERR as it is, and that is NONE because PHASE was ACTIVE. -/
theorem inv_finished {s : State} (hs : s.Inv) (hactive : s.phase = .active) :
    ((finishTail s).setPhase .done).Inv := by
  obtain ⟨hwf, herr⟩ := hs
  have hnone : s.err = .none := herr.2 (by simp [hactive])
  exact ⟨wf_finishTail hwf, by simp [hnone]⟩

theorem exec_keeps_inv {i : Instr} {s t : State} (hs : s.Inv) (h : exec i s = .next t) : t.Inv := by
  obtain ⟨-, _, rfl⟩ | ⟨-, rfl⟩ | ⟨_, -, -, -, rfl⟩ | ⟨-, hactive, rfl⟩ | ⟨f, rfl⟩ := exec_effects h
  · exact inv_respond hs _
  · exact inv_respond (inv_initState hs) _
  · exact inv_respond (inv_absorbed hs _) _
  · exact inv_respond (inv_finished hs hactive) _
  · exact inv_raise hs f

/-- Settles O34: a command, a refused word and a reset each keep the invariant, and waiting does not touch it. -/
theorem stepKeepsInvariant : Obligations.StepKeepsInvariant := by
  intro s t hs h
  obtain ⟨-, rfl⟩ | ⟨_, es, i, -, -, hexec⟩ | ⟨_, es, _, -, -, rfl⟩ | ⟨d, es, -, rfl⟩ := step_cases h
  · exact hs
  · exact exec_keeps_inv (s := s.setPending es) hs hexec
  · exact inv_raise (s := s.setPending es) hs _
  · exact ⟨Memory.wf_ofBlock d.buf, by simp⟩

/-- Settles O33: `State.reset` has BUF empty, ERR = NONE and PHASE = IDLE. -/
theorem resetStateMeetsInvariant : Obligations.ResetStateMeetsInvariant := ⟨Memory.wf_nil, by decide⟩

/-- A step with a fault response is fault entry on the state without its event. -/
theorem step_eq_raise_of_fault {s t : State} {r : Response} (h : step s = .next t) (hr : t.rsp = some r)
    (hfault : r.getLsbD 8 = true) : ∃ f es, t = raise f (s.setPending es) := by
  obtain ⟨-, rfl⟩ | ⟨_, es, i, -, -, hexec⟩ | ⟨_, es, _, -, -, rfl⟩ | ⟨_, _, -, rfl⟩ := step_cases h
  · cases hr
  · obtain ⟨d, hd⟩ | ⟨f, rfl⟩ := exec_performed_or_raise hexec
    · obtain rfl := Option.some.inj (hd.symm.trans hr)
      exact absurd ((okResponse_fault d).symm.trans hfault) (by decide)
    · exact ⟨f, es, rfl⟩
  · exact ⟨_, es, rfl⟩
  · cases hr

/-- Settles O35: the response came from fault entry, which keeps the invariant. -/
theorem faultResponseReportsErr : Obligations.FaultResponseReportsErr := by
  intro s t r hs h hr hfault
  obtain ⟨f, es, rfl⟩ := step_eq_raise_of_fault h hr hfault
  obtain ⟨-, herr⟩ := inv_raise (s := s.setPending es) hs f
  exact ⟨raise_phase _ _, fun hnone => herr.1 hnone (raise_phase _ _), Option.some.inj (hr.symm.trans (raise_rsp _ _))⟩

end Sys2Proof.Machine
end

section
/-! PROOFS. Which steps write which register: the phase graph (46_commands.md R173), NBYTES (10_state.md R26), H (R21),
BUF (R25) and the events to come (46_commands.md R161). -/

namespace Sys2Proof.Machine

/-- Settles O32: INIT and FINAL are the words 0x100 and 0x300, and every fault enters ERROR with FAULT = 1. -/
theorem phaseGraph : Obligations.PhaseGraph := by
  intro s t h hphase
  have refused : ∀ f u, (∃ r, (raise f u).rsp = some r ∧ r.getLsbD 8 = true) ∧ (raise f u).phase = .error := fun f u =>
    ⟨⟨_, raise_rsp f u, faultResponse_fault _⟩, raise_phase f u⟩
  obtain ⟨-, rfl⟩ | ⟨w, es, i, hpending, hdecode, hexec⟩ | ⟨_, _, _, -, -, rfl⟩ | ⟨d, es, hpending, rfl⟩ := step_cases h
  · exact absurd rfl hphase
  · rw [← encode_of_decode hdecode] at hpending
    obtain ⟨-, _, rfl⟩ | ⟨rfl, rfl⟩ | ⟨_, -, -, -, rfl⟩ | ⟨rfl, hactive, rfl⟩ | ⟨f, rfl⟩ := exec_effects hexec
    · exact absurd rfl hphase
    · exact .inr (.inl ⟨⟨es, hpending⟩, rfl⟩)
    · exact absurd (by simp) hphase
    · exact .inr (.inr (.inl ⟨⟨es, hpending⟩, hactive, rfl⟩))
    · exact .inr (.inr (.inr (refused f _)))
  · exact .inr (.inr (.inr (refused _ _)))
  · exact .inl ⟨⟨d, es, hpending⟩, rfl⟩

/-- An ABSORB outside ACTIVE or with the counter full is refused. -/
theorem exec_absorb_of_refused {s : State} (h : s.phase ≠ .active ∨ s.nbytes.toNat = 2 ^ 61 - 1) (b : Byte) :
    ∃ f, exec (.absorb b) s = .next (raise f s) := by
  by_cases hphase : s.phase = .active
  · have hfull := h.resolve_left (not_not_intro hphase)
    exact ⟨_, exec_absorb_of_counterFull hphase ((counterFull_iff _).2 hfull) b⟩
  · exact ⟨_, exec_absorb_of_phase_ne hphase b⟩

/-- A command other than INIT, ABSORB and FINAL answers or is refused, and writes no data register. -/
theorem keepsData_of_ne {i : Instr} {s t : State} (hinit : i ≠ .init) (habsorb : ∀ b, i ≠ .absorb b)
    (hfinal : i ≠ .final) (h : exec i s = .next t) : KeepsData s t := by
  obtain ⟨-, d, rfl⟩ | ⟨hi, -⟩ | ⟨b, hi, -⟩ | ⟨hi, -⟩ | ⟨f, rfl⟩ := exec_effects h
  · exact keepsData_respond s d
  · exact absurd hi hinit
  · exact absurd hi (habsorb b)
  · exact absurd hi hfinal
  · exact keepsData_raise f s

/-- A FINAL, refused or not, leaves NBYTES. -/
theorem nbytes_of_exec_final {s t : State} (h : exec .final s = .next t) : t.nbytes = s.nbytes := by
  by_cases hphase : s.phase = .active
  · obtain rfl := Host.Outcome.next.inj ((exec_final_of_active hphase).symm.trans h)
    exact finishTail_nbytes s
  · obtain rfl := Host.Outcome.next.inj ((exec_final_of_phase_ne hphase).symm.trans h)
    exact raise_nbytes _ s

/-- Settles O36: INIT, an ABSORB performed, an ABSORB refused, and the commands that do not name NBYTES. -/
theorem byteCounterNeverWraps : Obligations.ByteCounterNeverWraps := by
  intro i s t h
  refine ⟨?_, ?_, ?_, fun hinit habsorb => ?_⟩
  · rintro rfl
    obtain rfl := Host.Outcome.next.inj ((exec_init s).symm.trans h)
    rfl
  · rintro ⟨b, rfl⟩ hactive hroom
    have hroom : ¬counterFull s.nbytes = true := mt (counterFull_iff _).1 hroom
    obtain rfl := Host.Outcome.next.inj ((exec_absorb_of_not_counterFull hactive hroom b).symm.trans h)
    rw [State.respond_nbytes, blockIfFull_nbytes, storeByte_nbytes, toNat_add_one_of_not_counterFull hroom]
  · rintro ⟨b, rfl⟩ hrefused
    obtain ⟨f, hraise⟩ := exec_absorb_of_refused hrefused b
    obtain rfl := Host.Outcome.next.inj (hraise.symm.trans h)
    exact raise_nbytes f s
  · by_cases hfinal : i = .final
    · exact nbytes_of_exec_final (hfinal ▸ h)
    · obtain ⟨-, hnbytes, -⟩ := keepsData_of_ne hinit habsorb hfinal h
      exact hnbytes

/-- BLOCK runs in an ABSORB only when the byte counted is the 64th of its block. -/
theorem fill_of_absorbed_h_ne {s : State} {b : Byte} (hroom : ¬counterFull s.nbytes = true)
    (h : (blockIfFull (storeByte b s)).h ≠ s.h) : s.nbytes.toNat % 64 = 63 := by
  rw [blockIfFull_h, storeByte_nbytes, toNat_add_one_of_not_counterFull hroom] at h
  split at h
  · omega
  · exact absurd rfl h

/-- Settles O37: of all a command can do, three outcomes write H. -/
theorem hashValueWrittenOnlyByInitAndBlock : Obligations.HashValueWrittenOnlyByInitAndBlock := by
  intro i s t h hne
  obtain ⟨-, _, rfl⟩ | ⟨hi, -⟩ | ⟨b, hi, hactive, hroom, rfl⟩ | ⟨hi, hactive, -⟩ | ⟨f, rfl⟩ := exec_effects h
  · exact absurd rfl hne
  · exact .inl hi
  · exact .inr (.inr ⟨⟨b, hi⟩, hactive, fill_of_absorbed_h_ne hroom hne⟩)
  · exact .inr (.inl ⟨hi, hactive⟩)
  · exact absurd (raise_h f s) hne

/-- Settles O38: the commands refused, the ABSORB performed, and the commands that do not name BUF. -/
theorem bufferWrittenOnlyByAbsorbAndFinal : Obligations.BufferWrittenOnlyByAbsorbAndFinal := by
  intro i s t hwf h
  have refused : ∀ f, exec i s = .next (raise f s) → ∀ a, Memory.read t.buf a = Memory.read s.buf a := by
    intro f hraise a
    obtain rfl := Host.Outcome.next.inj (hraise.symm.trans h)
    rw [raise_buf]
  refine ⟨?_, ?_, ?_, fun hfinal habsorb => ?_⟩
  · rintro (rfl | ⟨b, rfl⟩) hphase
    · exact refused _ (exec_final_of_phase_ne hphase)
    · exact refused _ (exec_absorb_of_phase_ne hphase b)
  · rintro ⟨b, rfl⟩ hfull
    obtain ⟨f, hraise⟩ := exec_absorb_of_refused (.inr hfull) b
    exact refused f hraise
  · rintro ⟨b, rfl⟩ a ha
    by_cases hrefused : s.phase ≠ .active ∨ s.nbytes.toNat = 2 ^ 61 - 1
    · obtain ⟨f, hraise⟩ := exec_absorb_of_refused hrefused b
      exact refused f hraise a
    · obtain ⟨hactive, hroom⟩ := not_or.1 hrefused
      obtain ⟨u, hu, -, -, -, hread, -⟩ :=
        (absorbStoresCountsAndCompresses b s hwf).2.2 (not_not.1 hactive) hroom
      obtain rfl := Host.Outcome.next.inj (hu.symm.trans h)
      rw [hread a, if_neg ha]
  · by_cases hinit : i = .init
    · subst hinit
      obtain rfl := Host.Outcome.next.inj ((exec_init s).symm.trans h)
      exact fun _ => rfl
    · obtain ⟨-, -, hread⟩ := keepsData_of_ne hinit habsorb hfinal h
      exact hread

@[simp] theorem blockIfFull_pending (s : State) : (blockIfFull s).pending = s.pending := by
  unfold blockIfFull; split <;> simp

@[simp] theorem storeByte_pending (b : Byte) (s : State) : (storeByte b s).pending = s.pending := rfl

theorem exec_pending {i : Instr} {s t : State} (h : exec i s = .next t) : t.pending = s.pending := by
  obtain ⟨-, _, rfl⟩ | ⟨-, rfl⟩ | ⟨_, -, -, -, rfl⟩ | ⟨-, -, rfl⟩ | ⟨f, rfl⟩ := exec_effects h
  · rfl
  · rfl
  · simp
  · simp
  · exact raise_pending f s

/-- Settles O39: no operation a command is made of writes the list. -/
theorem commandsLeaveEventsAlone : Obligations.CommandsLeaveEventsAlone := fun _ _ _ => exec_pending

end Sys2Proof.Machine
end

section
/-! PROOFS. What a response can depend on (10_state.md R34, 20_memory.md R54). -/

namespace Sys2Proof.Machine

/-- The two states agree in what a response can depend on: PHASE and ERR, NBYTES in ACTIVE, H in DONE. -/
structure LooksLike (s u : State) : Prop where
  phase  : s.phase = u.phase
  err    : s.err = u.err
  nbytes : s.phase = .active → s.nbytes = u.nbytes
  h      : s.phase = .done → s.h = u.h

/-- The two states cannot be told apart by their response and by what RDSTAT would say next. -/
def SameAnswer (t v : State) : Prop := t.rsp = v.rsp ∧ t.phase = v.phase ∧ t.err = v.err

theorem LooksLike.raise {s u : State} (h : LooksLike s u) (f : CommandFault) : SameAnswer (raise f s) (raise f u) := by
  have herr : (Machine.raise f s).err = (Machine.raise f u).err := by rw [raise_err, raise_err, h.phase, h.err]
  exact ⟨by rw [raise_rsp, raise_rsp, herr], by rw [raise_phase, raise_phase], herr⟩

theorem sameAnswer_respond {s u : State} {c d : Byte} (hcd : c = d) (hphase : s.phase = u.phase)
    (herr : s.err = u.err) : SameAnswer (s.respond c) (u.respond d) := by
  subst hcd
  exact ⟨(State.respond_rsp s c).trans (State.respond_rsp u c).symm, hphase, herr⟩

/-- A command answers alike in states that look alike, and they have one PHASE and one ERR after it. -/
theorem LooksLike.exec {s u : State} (h : LooksLike s u) (i : Instr) :
    ∃ t v, exec i s = .next t ∧ exec i u = .next v ∧ SameAnswer t v := by
  have hphase := h.phase
  cases i with
  | nop => exact ⟨_, _, exec_nop s, exec_nop u, sameAnswer_respond rfl h.phase h.err⟩
  | init => exact ⟨_, _, exec_init s, exec_init u, sameAnswer_respond rfl rfl rfl⟩
  | rdstat =>
    have hstatus : statusByte s.err s.phase = statusByte u.err u.phase := by rw [h.phase, h.err]
    exact ⟨_, _, exec_rdstat s, exec_rdstat u, sameAnswer_respond hstatus h.phase h.err⟩
  | absorb b =>
    by_cases hs : s.phase = .active
    · have hu : u.phase = .active := hphase ▸ hs
      by_cases hfull : counterFull s.nbytes = true
      · exact ⟨_, _, exec_absorb_of_counterFull hs hfull b, exec_absorb_of_counterFull hu (h.nbytes hs ▸ hfull) b,
          h.raise _⟩
      · exact ⟨_, _, exec_absorb_of_not_counterFull hs hfull b,
          exec_absorb_of_not_counterFull hu (h.nbytes hs ▸ hfull) b,
          sameAnswer_respond rfl (by simpa using hphase) (by simpa using h.err)⟩
    · exact ⟨_, _, exec_absorb_of_phase_ne hs b, exec_absorb_of_phase_ne (hphase ▸ hs) b, h.raise _⟩
  | final =>
    by_cases hs : s.phase = .active
    · exact ⟨_, _, exec_final_of_active hs, exec_final_of_active (hphase ▸ hs),
        sameAnswer_respond rfl (by rw [State.setPhase_phase, State.setPhase_phase]) (by simpa using h.err)⟩
    · exact ⟨_, _, exec_final_of_phase_ne hs, exec_final_of_phase_ne (hphase ▸ hs), h.raise _⟩
  | rddig x =>
    by_cases hs : s.phase = .done
    · exact ⟨_, _, exec_rddig_of_done hs x, exec_rddig_of_done (hphase ▸ hs) x,
        sameAnswer_respond (by rw [h.h hs]) hphase h.err⟩
    · exact ⟨_, _, exec_rddig_of_phase_ne hs x, exec_rddig_of_phase_ne (hphase ▸ hs) x, h.raise _⟩

theorem LooksLike.performCommand {s u : State} (h : LooksLike s u) (w : CmdWord) :
    ∃ t v, performCommand w s = .next t ∧ performCommand w u = .next v ∧ SameAnswer t v := by
  cases hdecode : decode w with
  | command i => simpa only [performCommand_of_command hdecode] using h.exec i
  | illegal why =>
    exact ⟨_, _, performCommand_of_illegal hdecode s, performCommand_of_illegal hdecode u, h.raise _⟩

/-- Settles O40: outside DONE two states that differ in H alone look alike. -/
theorem hashValueHiddenOutsideDone : Obligations.HashValueHiddenOutsideDone := by
  intro s h w hphase
  have hlook : LooksLike s (s.setH h) := ⟨rfl, rfl, fun _ => rfl, fun hdone => absurd hdone hphase⟩
  obtain ⟨t, u, ht, hu, hrsp, hphase, -⟩ := hlook.performCommand w
  exact ⟨t, u, ht, hu, hrsp, hphase⟩

end Sys2Proof.Machine
end

section
/-! PROOFS. The command level's runs (46_commands.md R161): one response for each word. -/

namespace Sys2Proof.Machine

theorem exists_performCommand_answer (w : CmdWord) (s : State) :
    ∃ t r, performCommand w s = .next t ∧ t.rsp = some r := by
  obtain ⟨t, ht⟩ := exists_performCommand_eq_next w s
  obtain ⟨r, hr⟩ := exists_rsp_of_performCommand ht
  exact ⟨t, r, ht, hr⟩

theorem commandRun_cons {w : CmdWord} {s t : State} {r : Response} (ht : performCommand w s = .next t)
    (hr : t.rsp = some r) (ws : List CmdWord) :
    commandRun (w :: ws) s = (commandRun ws t).map (fun x => (r :: x.1, x.2)) := by
  rw [commandRun, ht]
  simp only [hr]
  rfl

theorem commandRun_cons_eq_some {w : CmdWord} {ws : List CmdWord} {s u : State} {rs : List Response}
    (h : commandRun (w :: ws) s = some (rs, u)) :
    ∃ t r qs, performCommand w s = .next t ∧ t.rsp = some r ∧ commandRun ws t = some (qs, u) ∧ rs = r :: qs := by
  obtain ⟨t, r, ht, hr⟩ := exists_performCommand_answer w s
  rw [commandRun_cons ht hr, Option.map_eq_some_iff] at h
  obtain ⟨⟨qs, last⟩, hqs, heq⟩ := h
  cases heq
  exact ⟨t, r, qs, ht, hr, hqs, rfl⟩

theorem commandRun_append {vs : List CmdWord} {qs : List Response} {t u : State}
    (hvs : commandRun vs t = some (qs, u)) :
    ∀ {ws : List CmdWord} {rs : List Response} {s : State}, commandRun ws s = some (rs, t) →
      commandRun (ws ++ vs) s = some (rs ++ qs, u)
  | [], _, _, h => by cases h; exact hvs
  | w :: ws, _, s, h => by
    obtain ⟨s', r, rest, hs', hr, hrest, rfl⟩ := commandRun_cons_eq_some h
    rw [List.cons_append, commandRun_cons hs' hr, commandRun_append hvs hrest]
    rfl

theorem length_of_commandRun :
    ∀ {ws : List CmdWord} {rs : List Response} {s t : State}, commandRun ws s = some (rs, t) → rs.length = ws.length
  | [], _, _, _, h => by cases h; rfl
  | w :: ws, _, _, _, h => by
    obtain ⟨_, _, rest, -, -, hrest, rfl⟩ := commandRun_cons_eq_some h
    rw [List.length_cons, length_of_commandRun hrest, List.length_cons]

end Sys2Proof.Machine
end

section
/-! PROOFS. The port (30_encoding.md R82, 70_reset_and_hazards.md R220, R221, R226, R227): an edge without reset accepts
a word or only moves the sequencer on. -/

namespace Sys2Proof.Machine

/-- What an edge that accepts no word makes of the sequencer. -/
def Sequencer.advance : Sequencer → Sequencer
  | .ready => .ready
  | .working n r => Sequencer.after n r
  | .responding _ => .ready

@[simp] theorem Sequencer.advance_after_succ (n : Nat) (r : Response) :
    (Sequencer.after (n + 1) r).advance = Sequencer.after n r := rfl

theorem Sequencer.after_ne_ready (n : Nat) (r : Response) : Sequencer.after n r ≠ .ready := by
  cases n <;> simp [Sequencer.after]

theorem accepts_iff (i : Pins) (p : PortState) :
    accepts i p = true ↔ i.rst = false ∧ i.cmdValid = true ∧ p.seq = .ready := by
  simp [accepts, PortState.cmdReady, and_assoc]

theorem portEdge_of_accepts {i : Pins} {p : PortState} (h : accepts i p = true) : portEdge i p = p.accept i.cmd := by
  obtain ⟨hrst, hvalid, hseq⟩ := (accepts_iff i p).1 h
  simp [portEdge, hrst, hvalid, hseq]

theorem portEdge_of_not_accepts {i : Pins} {p : PortState} (hrst : i.rst = false) (h : accepts i p = false) :
    portEdge i p = .next { p with seq := p.seq.advance } := by
  obtain ⟨core, seq, accepted⟩ := p
  cases seq with
  | ready =>
    have hvalid : i.cmdValid = false := by
      rw [← Bool.not_eq_true] at h ⊢
      exact fun hvalid => h ((accepts_iff i _).2 ⟨hrst, hvalid, rfl⟩)
    simp [portEdge, hrst, hvalid, Sequencer.advance]
  | working n r => simp [portEdge, hrst, Sequencer.advance]
  | responding r => simp [portEdge, hrst, Sequencer.advance]

/-- A busy port accepts nothing (R82). -/
theorem not_accepts_of_busy {p : PortState} (h : p.seq ≠ .ready) (i : Pins) : accepts i p = false := by
  rw [← Bool.not_eq_true, accepts_iff]
  exact fun hacc => h hacc.2.2

/-- Settles O56: such an edge moves the sequencer on, and reads neither `cmd` nor the command-level state. -/
theorem wordNotAcceptedHasNoEffect : Obligations.WordNotAcceptedHasNoEffect := by
  intro i p hrst hacc
  exact ⟨_, portEdge_of_not_accepts hrst hacc, rfl, rfl, fun w =>
    portEdge_of_not_accepts (i := { i with cmd := w }) hrst hacc⟩

theorem portRun_cons {i : Pins} {p q last : PortState} {is : List Pins} {ws : List CmdWord} {rs : List Response}
    (hedge : portEdge i p = .next q) (hrun : portRun is q = some (ws, rs, last)) :
    portRun (i :: is) p = some ((if accepts i p then [i.cmd] else []) ++ ws, q.rspOut.toList ++ rs, last) := by
  rw [portRun, hedge]
  simp only [hrun]
  rfl

/-- While no word is presented, a ready port stays as it is. -/
theorem portRun_of_no_valid {p : PortState} (hseq : p.seq = .ready) :
    ∀ is : List Pins, (∀ j ∈ is, j.rst = false ∧ j.cmdValid = false) → portRun is p = some ([], [], p)
  | [], _ => rfl
  | j :: is, h => by
    obtain ⟨hrst, hvalid⟩ := h j List.mem_cons_self
    have hacc : accepts j p = false := by simp [accepts, hvalid]
    have hstay : { p with seq := p.seq.advance } = p := by rw [hseq, Sequencer.advance, ← hseq]
    have hedge := hstay ▸ portEdge_of_not_accepts hrst hacc
    have hout : p.rspOut = none := by rw [PortState.rspOut, hseq]
    rw [portRun_cons hedge (portRun_of_no_valid hseq is fun k hk => h k (List.mem_cons_of_mem _ hk)), hacc, hout]
    rfl

/-- Settles O58: reset leaves the port ready, over the reset state, with no response owed. -/
theorem resetAbandonsCommand : Obligations.ResetAbandonsCommand := by
  intro i p hrst
  exact ⟨p.reset i.resetData, if_pos hrst, rfl, rfl, by simp [PortState.cmdReady, PortState.reset], rfl,
    portRun_of_no_valid rfl⟩

theorem accept_eq {w : CmdWord} {p : PortState} {t : State} {r : Response} (ht : performCommand w p.core = .next t)
    (hr : t.rsp = some r) :
    p.accept w = .next { core := t, seq := Sequencer.after (Config.latencyBeyondOne w p.core p.accepted) r,
                         accepted := p.accepted + 1 } := by
  rw [PortState.accept, ht]
  simp only [hr]
  rfl

/-- A response due after as many edges as the list has comes with the last of them, once, and stands at its end. -/
theorem portRun_of_after (r : Response) :
    ∀ (is : List Pins), (∀ j ∈ is, j.rst = false) → ∀ p : PortState, p.seq = Sequencer.after is.length r →
      ∃ rs, portRun is p = some ([], rs, { p with seq := .responding r }) ∧ p.rspOut.toList ++ rs = [r]
  | [], _, p, hseq => by
    have hseq : p.seq = .responding r := hseq
    exact ⟨[], by rw [portRun, ← hseq], by rw [PortState.rspOut, hseq]; rfl⟩
  | j :: is, hrst, p, hseq => by
    have hacc : accepts j p = false := not_accepts_of_busy (hseq ▸ Sequencer.after_ne_ready _ r) j
    have hedge := portEdge_of_not_accepts (hrst j List.mem_cons_self) hacc
    obtain ⟨rs, hrun, hout⟩ := portRun_of_after r is (fun k hk => hrst k (List.mem_cons_of_mem _ hk))
      { p with seq := p.seq.advance } (by rw [hseq]; rfl)
    have hbusy : p.rspOut = none := by rw [PortState.rspOut, hseq]; rfl
    exact ⟨_, (portRun_cons hedge hrun).trans (by rw [hacc]; rfl), by rw [hbusy]; exact hout⟩

/-- Settles O57: the accepting edge makes the response due after LATENCY edges, and those edges only count down. -/
theorem acceptedCommandAnswersOnce : Obligations.AcceptedCommandAnswersOnce := by
  intro i p is hacc hrst hlength
  obtain ⟨t, r, ht, hr⟩ := exists_performCommand_answer i.cmd p.core
  have hedge := (portEdge_of_accepts hacc).trans (accept_eq ht hr)
  obtain ⟨rs, hrun, hout⟩ := portRun_of_after r is hrst
    { core := t, seq := Sequencer.after (Config.latencyBeyondOne i.cmd p.core p.accepted) r,
      accepted := p.accepted + 1 }
    (by rw [hlength])
  refine ⟨r, { core := t, seq := .responding r, accepted := p.accepted + 1 }, ?_, rfl, ?_, fun j hj => ?_⟩
  · rw [portRun_cons hedge hrun, hout, hacc]
    rfl
  · rw [commandRun_cons ht hr]
    rfl
  · exact ⟨_, portEdge_of_not_accepts hj (not_accepts_of_busy (by simp) j), rfl, rfl,
      by simp [PortState.cmdReady, Sequencer.advance]⟩

/-! The refinement: what the port still owes and what it has shown are the command level's responses. -/

/-- A response due is shown at this edge or owed after it. -/
theorem rspOut_append_owed_of_after {p : PortState} {n : Nat} {r : Response} (h : p.seq = Sequencer.after n r) :
    p.rspOut.toList ++ p.seq.owed = [r] := by
  rw [PortState.rspOut, h]
  cases n <;> rfl

/-- An edge that accepts no word neither makes nor loses a response. -/
theorem rspOut_append_owed_of_advance (p : PortState) :
    ({ p with seq := p.seq.advance } : PortState).rspOut.toList ++ p.seq.advance.owed = p.seq.owed := by
  obtain ⟨core, seq, accepted⟩ := p
  cases seq with
  | ready => rfl
  | working n r => exact rspOut_append_owed_of_after (p := ⟨core, Sequencer.after n r, accepted⟩) rfl
  | responding r => rfl

/-- The commuting square of one edge: the word it accepts, if any, run at the command level. -/
theorem portEdge_refines {i : Pins} (hrst : i.rst = false) (p : PortState) :
    ∃ q cs, portEdge i p = .next q ∧ commandRun (if accepts i p then [i.cmd] else []) p.core = some (cs, q.core) ∧
      p.seq.owed ++ cs = q.rspOut.toList ++ q.seq.owed := by
  cases hacc : accepts i p with
  | true =>
    obtain ⟨-, -, hready⟩ := (accepts_iff i p).1 hacc
    obtain ⟨t, r, ht, hr⟩ := exists_performCommand_answer i.cmd p.core
    refine ⟨_, [r], (portEdge_of_accepts hacc).trans (accept_eq ht hr), ?_, ?_⟩
    · exact commandRun_cons ht hr []
    · rw [hready, rspOut_append_owed_of_after rfl]
      rfl
  | false =>
    refine ⟨_, [], portEdge_of_not_accepts hrst hacc, rfl, ?_⟩
    rw [rspOut_append_owed_of_advance, List.append_nil]

theorem portRun_refines :
    ∀ (is : List Pins), (∀ j ∈ is, j.rst = false) → ∀ p : PortState,
      ∃ ws rs q cs, portRun is p = some (ws, rs, q) ∧ commandRun ws p.core = some (cs, q.core) ∧
        p.seq.owed ++ cs = rs ++ q.seq.owed
  | [], _, p => ⟨[], [], p, [], rfl, rfl, List.append_nil _⟩
  | i :: is, hrst, p => by
    obtain ⟨p', cs, hedge, hcommand, howed⟩ := portEdge_refines (hrst i List.mem_cons_self) p
    obtain ⟨ws, rs, q, ds, hrun, hcommands, howes⟩ :=
      portRun_refines is (fun j hj => hrst j (List.mem_cons_of_mem _ hj)) p'
    refine ⟨_, _, q, cs ++ ds, portRun_cons hedge hrun, commandRun_append hcommands hcommand, ?_⟩
    rw [← List.append_assoc, howed, List.append_assoc, howes, List.append_assoc]

/-- Settles O59: a ready port owes nothing, so the command level's responses are those shown and the one owed last. -/
theorem portRefinesCommandLevel : Obligations.PortRefinesCommandLevel := by
  intro is p hready hrst
  obtain ⟨ws, rs, q, cs, hrun, hcommands, howes⟩ := portRun_refines is hrst p
  have hcs : cs = rs ++ q.seq.owed := by rw [hready] at howes; exact howes
  subst hcs
  exact ⟨ws, rs, q, hrun, hcommands, List.length_append.symm.trans (length_of_commandRun hcommands)⟩

end Sys2Proof.Machine
end

section
/-! PROOFS. The assembler (30_encoding.md R80, R81). -/

namespace Sys2Proof.Machine

theorem AsmLine.words_of_ne_rawWord {l : AsmLine} (h : ∀ w, l ≠ .rawWord w) : l.words = l.commands.map encode := by
  cases l with
  | rawWord w => exact absurd rfl (h w)
  | command | absorbs | absorbN | rddigest | hash => rfl

/-- Settles O60: such a line's words are encoded commands, and HASH's commands are those of its parts. -/
theorem assemblerEmitsNoReservedWord : Obligations.AssemblerEmitsNoReservedWord := by
  refine ⟨fun l hl w hw => ?_, fun text => ?_, by decide⟩
  · rw [AsmLine.words_of_ne_rawWord hl] at hw
    obtain ⟨i, -, rfl⟩ := List.mem_map.1 hw
    exact (encodingRow i).2
  · change (hashCommands text ++ readCommands).map encode =
      [encode .init] ++ (text.map Instr.absorb).map encode ++ [encode .final] ++ readCommands.map encode
    rw [hashCommands, List.map_append, List.map_append, List.map_append]
    rfl

end Sys2Proof.Machine
end

section
/-! PROOFS. The primitives on words: `add32`, `rotr`, `shr` and the byte orders (00_scope.md R8 to R13). -/

namespace Sys2Proof.Machine

/-- Settles O1: addition of 32-bit vectors is the sum modulo 2^32. -/
theorem addIsSumModulo : Obligations.AddIsSumModulo :=
  ⟨BitVec.toNat_add, fun x y z => ⟨BitVec.add_assoc x y z, BitVec.add_comm x y⟩, by decide, by decide⟩

/-- The bits that leave on the right come in on the left. -/
theorem rotr_getLsbD {n i : Nat} (hn : n < 32) (hi : i < 32) (x : Word) :
    (rotr x n).getLsbD i = x.getLsbD ((i + n) % 32) := by
  rw [rotr, BitVec.getLsbD_or, BitVec.getLsbD_ushiftRight, BitVec.getLsbD_shiftLeft]
  by_cases hstay : i + n < 32
  · have hright : i < 32 - n := by omega
    rw [Nat.mod_eq_of_lt hstay, Nat.add_comm n i]
    simp [hright]
  · have hleft : ¬i < 32 - n := by omega
    have hwrap : (i + n) % 32 = i - (32 - n) := by omega
    rw [hwrap, BitVec.getLsbD_of_ge x (n + i) (by omega)]
    simp [hleft, hi]

theorem shr_getLsbD (x : Word) (n i : Nat) : (shr x n).getLsbD i = x.getLsbD (i + n) := by
  rw [shr, BitVec.getLsbD_ushiftRight, Nat.add_comm]

theorem rotr_zero (n : Nat) : rotr 0 n = 0 := by
  simp [rotr]

/-- Every bit of the all-ones word is a bit of it. -/
theorem rotr_allOnes {n : Nat} (hn : n < 32) : rotr 0xFFFFFFFF n = 0xFFFFFFFF := by
  have hones : ∀ j, j < 32 → (0xFFFFFFFF : Word).getLsbD j = true := fun j hj => by
    rw [show (0xFFFFFFFF : Word) = BitVec.allOnes 32 from rfl, BitVec.getLsbD_allOnes, decide_eq_true hj]
  refine BitVec.eq_of_getLsbD_eq fun i hi => ?_
  rw [rotr_getLsbD hn hi, hones i hi, hones _ (Nat.mod_lt _ (by decide))]

/-- Settles O2: the formula by the two shifts, and the bits by `rotr_getLsbD`. -/
theorem rotateRightMovesBits : Obligations.RotateRightMovesBits := by
  refine ⟨fun x n _ hn => ⟨?_, fun i hi => rotr_getLsbD hn hi x⟩, by decide, by decide,
    fun n _ hn => ⟨rotr_zero n, rotr_allOnes hn⟩⟩
  rw [rotr, BitVec.toNat_or, BitVec.toNat_ushiftRight, BitVec.toNat_shiftLeft]

/-- Settles O3: a shift by n divides by 2^n, and bit i of it is bit i + n of the word. -/
theorem shiftRightDivides : Obligations.ShiftRightDivides := by
  refine ⟨fun x n _ _ => ⟨?_, fun i hi => ?_⟩, by decide, by decide, by decide⟩
  · rw [shr, BitVec.toNat_ushiftRight, Nat.shiftRight_eq_div_pow]
  · rw [shr_getLsbD, BitVec.getLsbD_of_ge x (i + n) (by omega)]

theorem toNat_be32 (b0 b1 b2 b3 : Byte) :
    (be32 b0 b1 b2 b3).toNat = b0.toNat * 2 ^ 24 + b1.toNat * 2 ^ 16 + b2.toNat * 2 ^ 8 + b3.toNat := by
  have happend : (be32 b0 b1 b2 b3).toNat = (b0 ++ b1 ++ b2 ++ b3).toNat := rfl
  rw [happend, toNat_append_byte, toNat_append_byte, toNat_append_byte]
  omega

theorem toBE32_be32 (b0 b1 b2 b3 : Byte) : toBE32 (be32 b0 b1 b2 b3) = [b0, b1, b2, b3] := by
  have hbyte : ∀ (j : Nat) (b : Byte), (∀ i, i < 8 → (be32 b0 b1 b2 b3).getLsbD (8 * (4 - 1 - j) + i) = b.getLsbD i) →
      beByte 4 (be32 b0 b1 b2 b3) j = b := fun j b h =>
    BitVec.eq_of_getLsbD_eq fun i hi => by rw [beByte_getLsbD, decide_eq_true hi, Bool.true_and, h i hi]
  have hbytes : toBE32 (be32 b0 b1 b2 b3) = [beByte 4 (be32 b0 b1 b2 b3) 0, beByte 4 (be32 b0 b1 b2 b3) 1,
    beByte 4 (be32 b0 b1 b2 b3) 2, beByte 4 (be32 b0 b1 b2 b3) 3] := rfl
  have h0 := hbyte 0 b0 fun i hi => by simp [be32_getLsbD, show ¬24 + i < 8 by omega, show ¬24 + i < 16 by omega]
  have h1 := hbyte 1 b1 fun i hi => by simp [be32_getLsbD, show ¬16 + i < 8 by omega, show 16 + i < 24 by omega]
  have h2 := hbyte 2 b2 fun i hi => by simp [be32_getLsbD, show 8 + i < 16 by omega]
  have h3 := hbyte 3 b3 fun i hi => by simp [be32_getLsbD, hi]
  rw [hbytes, h0, h1, h2, h3]

theorem be32_extract (w : Word) :
    be32 (w.extractLsb' 24 8) (w.extractLsb' 16 8) (w.extractLsb' 8 8) (w.extractLsb' 0 8) = w := by
  refine BitVec.eq_of_getLsbD_eq fun i hi => ?_
  simp only [be32_getLsbD, BitVec.getLsbD_extractLsb']
  split_ifs with h3 h2 h1
  · simp [h3]
  · simp [show i - 8 < 8 by omega, show 8 + (i - 8) = i by omega]
  · simp [show i - 16 < 8 by omega, show 16 + (i - 16) = i by omega]
  · simp [show i - 24 < 8 by omega, show 24 + (i - 24) = i by omega]

/-- Settles O4: the two formulas, and each byte order undone by the other. -/
theorem bigEndianWordRoundTrip : Obligations.BigEndianWordRoundTrip :=
  ⟨fun b0 b1 b2 b3 => ⟨toNat_be32 b0 b1 b2 b3, toBE32_be32 b0 b1 b2 b3⟩, fun w => ⟨rfl, be32_extract w⟩⟩

/-- Settles O5: the bytes are `ToBE64`'s definition, and the bit length is 8·NBYTES with no bit lost. -/
theorem lengthFieldIsBigEndianBitLength : Obligations.LengthFieldIsBigEndianBitLength :=
  ⟨fun _ => rfl, fun n => ⟨toNat_bitLength n, by rw [lengthField, bitLength_eq_ofNat]⟩⟩

end Sys2Proof.Machine
end

section
/-! PROOFS. The mix functions of the scheduler and the rounds (42_message_schedule.md R111, R112; 43_compressor.md R121
to R124), bit by bit. -/

namespace Sys2Proof.Machine

theorem rotr_xor {n : Nat} (hn : n < 32) (x y : Word) : rotr (x ^^^ y) n = rotr x n ^^^ rotr y n := by
  refine BitVec.eq_of_getLsbD_eq fun i hi => ?_
  simp only [BitVec.getLsbD_xor, rotr_getLsbD hn hi]

theorem shr_xor (x y : Word) (n : Nat) : shr (x ^^^ y) n = shr x n ^^^ shr y n := BitVec.ushiftRight_xor_distrib x y n

/-- The XOR of three sums taken term by term: why the mix functions are linear. -/
theorem xor_three_xor (a b c d e f : Word) :
    (a ^^^ b) ^^^ (c ^^^ d) ^^^ (e ^^^ f) = (a ^^^ c ^^^ e) ^^^ (b ^^^ d ^^^ f) := by
  ac_rfl

theorem ssig0_xor (x y : Word) : ssig0 (x ^^^ y) = ssig0 x ^^^ ssig0 y := by
  simp only [ssig0, rotr_xor (n := 7) (by decide), rotr_xor (n := 18) (by decide), shr_xor, xor_three_xor]

theorem ssig1_xor (x y : Word) : ssig1 (x ^^^ y) = ssig1 x ^^^ ssig1 y := by
  simp only [ssig1, rotr_xor (n := 17) (by decide), rotr_xor (n := 19) (by decide), shr_xor, xor_three_xor]

theorem bsig0_xor (x y : Word) : bsig0 (x ^^^ y) = bsig0 x ^^^ bsig0 y := by
  simp only [bsig0, rotr_xor (n := 2) (by decide), rotr_xor (n := 13) (by decide), rotr_xor (n := 22) (by decide),
    xor_three_xor]

theorem bsig1_xor (x y : Word) : bsig1 (x ^^^ y) = bsig1 x ^^^ bsig1 y := by
  simp only [bsig1, rotr_xor (n := 6) (by decide), rotr_xor (n := 11) (by decide), rotr_xor (n := 25) (by decide),
    xor_three_xor]

/-- Settles O6: each term's bits by `rotr_getLsbD` and `shr_getLsbD`, and linearity term by term. -/
theorem scheduleMixFunctions : Obligations.ScheduleMixFunctions := by
  refine ⟨fun x i hi => ⟨?_, ?_⟩, fun x y => ⟨ssig0_xor x y, ssig1_xor x y⟩, by decide, by decide⟩
  · simp only [ssig0, BitVec.getLsbD_xor, rotr_getLsbD (n := 7) (by decide) hi, rotr_getLsbD (n := 18) (by decide) hi,
      shr_getLsbD]
  · simp only [ssig1, BitVec.getLsbD_xor, rotr_getLsbD (n := 17) (by decide) hi, rotr_getLsbD (n := 19) (by decide) hi,
      shr_getLsbD]

/-- Settles O7: each term's bits by `rotr_getLsbD`, and linearity term by term. -/
theorem roundMixFunctions : Obligations.RoundMixFunctions := by
  refine ⟨fun x i hi => ⟨?_, ?_⟩, fun x y => ⟨bsig0_xor x y, bsig1_xor x y⟩, by decide, by decide⟩
  · simp only [bsig0, BitVec.getLsbD_xor, rotr_getLsbD (n := 2) (by decide) hi, rotr_getLsbD (n := 13) (by decide) hi,
      rotr_getLsbD (n := 22) (by decide) hi]
  · simp only [bsig1, BitVec.getLsbD_xor, rotr_getLsbD (n := 6) (by decide) hi, rotr_getLsbD (n := 11) (by decide) hi,
      rotr_getLsbD (n := 25) (by decide) hi]

theorem ch_getLsbD (e f g : Word) {i : Nat} (hi : i < 32) :
    (ch e f g).getLsbD i = if e.getLsbD i then f.getLsbD i else g.getLsbD i := by
  simp only [ch, BitVec.getLsbD_xor, BitVec.getLsbD_and, BitVec.getLsbD_not, decide_eq_true hi, Bool.true_and]
  cases e.getLsbD i <;> simp

theorem ch_eq_or (e f g : Word) : ch e f g = (e &&& f) ||| (~~~e &&& g) := by
  refine BitVec.eq_of_getLsbD_eq fun i hi => ?_
  simp only [ch_getLsbD e f g hi, BitVec.getLsbD_or, BitVec.getLsbD_and, BitVec.getLsbD_not, decide_eq_true hi,
    Bool.true_and]
  cases e.getLsbD i <;> simp

theorem ones_and (x : Word) : 0xFFFFFFFF &&& x = x := BitVec.allOnes_and

theorem ch_self (e f : Word) : ch e f f = f := by
  refine BitVec.eq_of_getLsbD_eq fun i hi => ?_
  rw [ch_getLsbD e f f hi, ite_self]

/-- Settles O8: `ch_getLsbD` says which operand a bit comes from, and the corner cases follow from its formula. -/
theorem chooseSelectsBits : Obligations.ChooseSelectsBits := by
  refine ⟨fun e f g => ⟨rfl, ch_eq_or e f g, fun i hi => ch_getLsbD e f g hi⟩, fun e f g => ⟨?_, ?_, ch_self e f⟩,
    by decide, by decide, 0, 1, 1, by decide⟩
  · simpa [ch] using ones_and g
  · simpa [ch] using ones_and f

theorem maj_getLsbD (a b c : Word) (i : Nat) :
    (maj a b c).getLsbD i = true ↔ 2 ≤ (a.getLsbD i).toNat + (b.getLsbD i).toNat + (c.getLsbD i).toNat := by
  simp only [maj, BitVec.getLsbD_xor, BitVec.getLsbD_and]
  cases a.getLsbD i <;> cases b.getLsbD i <;> cases c.getLsbD i <;> decide

theorem maj_comm (a b c : Word) : maj a b c = maj b a c := by
  rw [maj, maj, BitVec.and_comm a b, BitVec.xor_assoc, BitVec.xor_assoc, BitVec.xor_comm (a &&& c)]

theorem maj_comm_right (a b c : Word) : maj a b c = maj a c b := by
  rw [maj, maj, BitVec.xor_comm (a &&& b), BitVec.and_comm b c]

/-- Two equal operands are the majority. -/
theorem maj_self (x y : Word) : maj x x y = x := by
  rw [maj, BitVec.xor_assoc, BitVec.xor_self, BitVec.xor_zero, BitVec.and_self]

theorem maj_zero (x y : Word) : maj 0 x y = x &&& y := by
  simp [maj]

theorem maj_allOnes (x y : Word) : maj 0xFFFFFFFF x y = x ||| y := by
  refine BitVec.eq_of_getLsbD_eq fun i hi => ?_
  rw [maj, ones_and, ones_and, BitVec.getLsbD_xor, BitVec.getLsbD_xor, BitVec.getLsbD_and, BitVec.getLsbD_or]
  cases x.getLsbD i <;> cases y.getLsbD i <;> rfl

/-- Settles O9: the count of set bits by truth table, and the rule's symmetries and corner cases. -/
theorem majorityOfBits : Obligations.MajorityOfBits :=
  ⟨fun a b c => ⟨rfl, fun i _ => maj_getLsbD a b c i⟩, fun a b c => ⟨maj_comm a b c, maj_comm_right a b c⟩,
    fun x y => ⟨maj_self x y, maj_zero x y, maj_allOnes x y⟩, by decide, by decide, by decide⟩

end Sys2Proof.Machine
end

section
/-! PROOFS. The words of a block (41_block_parser.md R101), the rounds (43_compressor.md R130) and the digest's bytes
(45_digest_assembler.md R150, R153). -/

namespace Sys2Proof.Machine

/-- Byte `j` of `BE32` of four bytes is the `j`-th of them. -/
theorem getElem?_of_beByte_be32 (b0 b1 b2 b3 : Byte) {j : Nat} (hj : j < 4) :
    some (beByte 4 (be32 b0 b1 b2 b3) j) = [b0, b1, b2, b3][j]? := by
  rw [← getElem?_toBE32 _ hj, toBE32_be32]

theorem beByte_words (b : Block) {i j : Nat} (hi : i < 16) (hj : j < 4) :
    some (beByte 4 (words b)[i] j) = some (b[4 * i + j]'(by omega)) := by
  rw [words, Vector.getElem_ofFn, getElem?_of_beByte_be32 _ _ _ _ hj]
  match j, hj with
  | 0, _ => rfl
  | 1, _ => rfl
  | 2, _ => rfl
  | 3, _ => rfl

/-- The words of a block in order are its bytes in order. -/
theorem flatMap_toBE32_words (b : Block) : (words b).toList.flatMap toBE32 = b.toList := by
  refine List.ext_getElem? fun k => ?_
  have hj : k % 4 < 4 := Nat.mod_lt _ (by decide)
  have hindex := getElem?_flatMap_toBE32 hj (words b).toList (k / 4)
  rw [Nat.div_add_mod] at hindex
  rw [hindex, Vector.getElem?_toList, Vector.getElem?_toList]
  by_cases hk : k < 64
  · have hi : k / 4 < 16 := by omega
    have hbyte : 4 * (k / 4) + k % 4 = k := Nat.div_add_mod k 4
    rw [Vector.getElem?_eq_getElem hi, Vector.getElem?_eq_getElem hk, Option.map_some, beByte_words b hi hj]
    simp only [hbyte]
  · rw [Vector.getElem?_eq_none (by omega), Vector.getElem?_eq_none (by omega), Option.map_none]

/-- Settles O43: PARSE only sets W, word by word as `getElem_parseInto` says, and the words give the block back. -/
theorem parseReadsBigEndianWords : Obligations.ParseReadsBigEndianWords :=
  ⟨fun s => ⟨⟨rfl, rfl⟩, ⟨rfl, rfl, fun _ => rfl⟩, fun _ => getElem_parseInto s.buf s.w⟩,
    fun m _ hj => getElem_words_block m hj, flatMap_toBE32_words⟩

/-- The working variables after the first `n` rounds are the sequence's `n`-th. -/
theorem roundsOn_eq {w : Vector Word 64} {v : Nat → Work}
    (hround : ∀ t (ht : t < 64), v (t + 1) = mixRound (v t) Tables.K[t] w[t]) :
    ∀ (n : Nat) (hn : n ≤ 64), roundsOn w n hn (v 0) = v n
  | 0, _ => rfl
  | n + 1, hn => by rw [roundsOn, roundsOn_eq hround n, hround n hn]

/-- Settles O45: the sequence starts from LOADWORK's values and follows the rounds, so its end is the rounds' end. -/
theorem compressIsSixtyFourRounds : Obligations.CompressIsSixtyFourRounds := by
  intro h w v hload hround
  have hload : Work.ofState8 h = v 0 := hload.symm
  rw [compress, hload, roundsOn_eq hround]
  rfl

theorem length_flatMap_toBE32 (ws : List Word) : (ws.flatMap toBE32).length = 4 * ws.length := by
  induction ws with
  | nil => rfl
  | cons w ws ih =>
    have hword : (toBE32 w).length = 4 := rfl
    rw [List.flatMap_cons, List.length_append, ih, hword, List.length_cons]
    omega

theorem length_digest (h : State8) : (digest h).length = 32 := by
  rw [digest, length_flatMap_toBE32, Vector.length_toList]

theorem getElem?_digest_word (h : State8) {i j : Nat} (hi : i < 8) (hj : j < 4) :
    (digest h)[4 * i + j]? = some (h[i].extractLsb' (24 - 8 * j) 8) := by
  have hshift : 8 * (4 - 1 - j) = 24 - 8 * j := by omega
  rw [digest, getElem?_flatMap_toBE32 hj, Vector.getElem?_toList, Vector.getElem?_eq_getElem hi, Option.map_some,
    beByte, hshift]

/-- Each word of the state is BE32 of four of the digest's bytes, so the digest fixes it. -/
theorem digest_injective {h k : State8} (heq : digest h = digest k) : h = k := by
  refine Vector.ext fun i hi => ?_
  have hbyte : ∀ j, j < 4 → h[i].extractLsb' (24 - 8 * j) 8 = k[i].extractLsb' (24 - 8 * j) 8 := fun j hj => by
    rw [← Option.some.injEq, ← getElem?_digest_word h hi hj, heq, getElem?_digest_word k hi hj]
  have h0 := hbyte 0 (by decide)
  have h1 := hbyte 1 (by decide)
  have h2 := hbyte 2 (by decide)
  have h3 := hbyte 3 (by decide)
  rw [← be32_extract h[i], ← be32_extract k[i]]
  exact congr (congr (congr (congrArg be32 h0) h1) h2) h3

/-- Word `q` of the state stands in bits 255 - 32q .. 224 - 32q of DIGEST256. -/
theorem digest256_getLsbD (h : State8) {q i : Nat} (hq : q < 8) (hi : i < 32) :
    (digest256 h).getLsbD (224 - 32 * q + i) = h[q].getLsbD i := by
  have hdef : ∀ k, (digest256 h).getLsbD k = (h[0] ++ h[1] ++ h[2] ++ h[3] ++ h[4] ++ h[5] ++ h[6] ++ h[7]).getLsbD k :=
    fun _ => rfl
  simp only [hdef, BitVec.getLsbD_append]
  match q, hq with
  | 0, _ => grind
  | 1, _ => grind
  | 2, _ => grind
  | 3, _ => grind
  | 4, _ => grind
  | 5, _ => grind
  | 6, _ => grind
  | 7, _ => grind

/-- DIGEST256 shows the bytes of the DIG window, the first in its top byte. -/
theorem extract_digest256 (h : State8) (x : BitVec 5) :
    (digest256 h).extractLsb' (248 - 8 * x.toNat) 8 = readDig h x := by
  have hx := x.isLt
  refine BitVec.eq_of_getLsbD_eq fun i hi => ?_
  have hbit : 248 - 8 * x.toNat + i = 224 - 32 * (x.toNat / 4) + (8 * (4 - 1 - x.toNat % 4) + i) := by omega
  rw [BitVec.getLsbD_extractLsb', readDig, beByte_getLsbD, hbit, digest256_getLsbD h (by omega) (by omega)]

/-- Settles O47: the digest byte by byte, its length, its two views, and that it loses nothing. -/
theorem digestIsBigEndianAndInjective : Obligations.DigestIsBigEndianAndInjective :=
  ⟨fun h _ hi _ hj => getElem?_digest_word h hi hj, length_digest,
    fun h x => ⟨getElem?_digest h x, extract_digest256 h x⟩, fun _ _ => digest_injective⟩

end Sys2Proof.Machine
end

section
/-! PROOFS. Pad (40_padder.md R90 to R97): what it appends to the message, byte by byte and bit by bit. -/

namespace Sys2Proof.Machine

/-- What Pad appends to a message of `n` bytes (R91). -/
def padSuffix (n : Nat) : List Byte :=
  [0x80] ++ List.replicate (padZeros n) 0x00 ++ toBE64 (BitVec.ofNat 64 (8 * n))

theorem pad_eq_some_iff {m p : List Byte} : pad m = some p ↔ m.length ≤ 2 ^ 61 - 1 ∧ m ++ padSuffix m.length = p := by
  rw [pad, Option.ite_none_right_eq_some, Option.some.injEq, padSuffix, List.append_assoc, List.append_assoc,
    List.append_assoc]
  rfl

/-- The zeros fill the last block up to its length field. -/
theorem padZeros_add (n : Nat) : n + 9 + padZeros n = 64 * ((n + 8) / 64 + 1) := by
  unfold padZeros
  omega

theorem length_padSuffix (n : Nat) : (padSuffix n).length = padZeros n + 9 := by
  rw [padSuffix, List.length_append, List.length_append, List.length_replicate]
  change 1 + padZeros n + 8 = _
  omega

theorem length_padded (m : List Byte) : (m ++ padSuffix m.length).length = 64 * ((m.length + 8) / 64 + 1) := by
  rw [List.length_append, length_padSuffix, ← padZeros_add]
  omega

theorem getElem?_padSuffix_zeros {n i : Nat} (hi : i < padZeros n) : (padSuffix n)[i + 1]? = some 0x00 := by
  rw [padSuffix, List.append_assoc, List.singleton_append, List.getElem?_cons_succ,
    List.getElem?_append_left (by rwa [List.length_replicate]), List.getElem?_replicate, if_pos hi]

theorem drop_padSuffix (n : Nat) : (padSuffix n).drop (padZeros n + 1) = toBE64 (BitVec.ofNat 64 (8 * n)) := by
  rw [padSuffix]
  exact List.drop_left' (by simp)

theorem getElem?_padded_mark (m : List Byte) : (m ++ padSuffix m.length)[m.length]? = some 0x80 := by
  rw [List.getElem?_append_right (Nat.le_refl _), Nat.sub_self]
  rfl

theorem getElem?_padded_zeros {m : List Byte} {i : Nat} (hlow : m.length < i)
    (hhigh : i + 8 < (m ++ padSuffix m.length).length) : (m ++ padSuffix m.length)[i]? = some 0x00 := by
  rw [List.length_append, length_padSuffix] at hhigh
  obtain ⟨k, rfl⟩ := Nat.exists_eq_add_of_lt hlow
  have hindex : m.length + k + 1 - m.length = k + 1 := by omega
  rw [List.getElem?_append_right (by omega), hindex]
  exact getElem?_padSuffix_zeros (by omega)

theorem drop_padded_length (m : List Byte) :
    (m ++ padSuffix m.length).drop ((m ++ padSuffix m.length).length - 8) =
      toBE64 (BitVec.ofNat 64 (8 * m.length)) := by
  have hstart : (m ++ padSuffix m.length).length - 8 = m.length + (padZeros m.length + 1) := by
    rw [List.length_append, length_padSuffix]
    omega
  rw [hstart, List.drop_length_add_append, drop_padSuffix]

/-- The 0x80 of the shorter message would stand where the longer one's padding has a zero: so the lengths are one. -/
theorem length_le_of_padded_eq {m n : List Byte} (h : m ++ padSuffix m.length = n ++ padSuffix n.length) :
    n.length ≤ m.length := by
  by_contra hlt
  have hroom : n.length + 8 < (m ++ padSuffix m.length).length := by
    rw [h, List.length_append, length_padSuffix]
    omega
  have hzero := getElem?_padded_zeros (Nat.lt_of_not_le hlt) hroom
  rw [h, getElem?_padded_mark] at hzero
  exact absurd hzero (by decide)

theorem padded_injective {m n : List Byte} (h : m ++ padSuffix m.length = n ++ padSuffix n.length) : m = n :=
  List.append_inj_left h (Nat.le_antisymm (length_le_of_padded_eq h.symm) (length_le_of_padded_eq h))

/-- Settles O49: Pad's domain, the shape of what it appends, and injectivity. -/
theorem padShape : Obligations.PadShape := by
  refine ⟨fun m => ?_, fun m p hp => ?_, fun m n p hm hn => ?_⟩
  · exact ⟨fun ⟨p, hp⟩ => (pad_eq_some_iff.1 hp).1, fun h => ⟨_, pad_eq_some_iff.2 ⟨h, rfl⟩⟩⟩
  · obtain ⟨-, rfl⟩ := pad_eq_some_iff.1 hp
    have hlength := length_padded m
    refine ⟨by omega, hlength, by omega, by omega, List.prefix_append _ _, getElem?_padded_mark m, ?_,
      drop_padded_length m⟩
    exact fun i hlow hhigh => getElem?_padded_zeros hlow hhigh
  · exact padded_injective ((pad_eq_some_iff.1 hm).2.trans (pad_eq_some_iff.1 hn).2.symm)

/-! The bits of a byte sequence (20_memory.md R52). -/

theorem bitString_append (a b : List Byte) : bitString (a ++ b) = bitString a ++ bitString b := List.flatMap_append

theorem length_bitString (bs : List Byte) : (bitString bs).length = 8 * bs.length := by
  induction bs with
  | nil => rfl
  | cons b bs ih =>
    have hbyte : (byteBits b).length = 8 := rfl
    have hcons : bitString (b :: bs) = byteBits b ++ bitString bs := List.flatMap_cons
    rw [hcons, List.length_append, ih, hbyte, List.length_cons]
    omega

theorem bitString_zeros (k : Nat) : bitString (List.replicate k 0x00) = List.replicate (8 * k) false := by
  induction k with
  | zero => rfl
  | succ k ih =>
    have hbyte : byteBits 0x00 = List.replicate 8 false := by decide
    have hcons : bitString (0x00 :: List.replicate k 0x00) = byteBits 0x00 ++ bitString (List.replicate k 0x00) :=
      List.flatMap_cons
    rw [List.replicate_succ, hcons, ih, hbyte, ← List.replicate_add, Nat.mul_succ, Nat.add_comm 8]

/-- The byte 0x80 is the `1` bit and the first seven zeros (R91). -/
theorem bitString_padSuffix (n : Nat) :
    bitString (padSuffix n) = [true] ++ List.replicate (7 + 8 * padZeros n) false
      ++ bitString (toBE64 (BitVec.ofNat 64 (8 * n))) := by
  have hmark : bitString [0x80] = [true] ++ List.replicate 7 false := by decide
  rw [padSuffix, bitString_append, bitString_append, hmark, bitString_zeros, List.append_assoc [true],
    ← List.replicate_add]

/-- R91's zero bytes are R90's zero bits, less the seven in the byte 0x80. -/
theorem padBits_zeros (n : Nat) : ((447 - ((8 * n : Nat) : Int)) % 512).toNat = 7 + 8 * padZeros n := by
  unfold padZeros
  omega

/-- Settles O48: the bits of what Pad appends, and the least number of zeros because it is below 512. -/
theorem padBytesAreSourcePadding : Obligations.PadBytesAreSourcePadding := by
  intro m p hp
  obtain ⟨-, rfl⟩ := pad_eq_some_iff.1 hp
  have hzeros := padZeros_add m.length
  have hfew : padZeros m.length < 64 := by omega
  refine ⟨7 + 8 * padZeros m.length, ?_, by omega, fun l hl => by omega, ?_⟩
  · rw [bitString_append, bitString_padSuffix, List.append_assoc, List.append_assoc, List.append_assoc]
  · rw [padBits, length_bitString, padBits_zeros, bitString_append, bitString_padSuffix, List.append_assoc,
      List.append_assoc, List.append_assoc]

end Sys2Proof.Machine
end

section
/-! PROOFS. Blocks (41_block_parser.md R100) and the chain (44_state_accumulator.md R143). -/

namespace Sys2Proof.Machine

theorem getElem_blockAt (p : List Byte) (i : Nat) {j : Nat} (hj : j < 64) :
    (blockAt p i)[j] = p.getD (64 * i + j) 0 := by
  simp [blockAt]

theorem toList_blockAt {p : List Byte} {i : Nat} (h : 64 * i + 64 ≤ p.length) :
    (blockAt p i).toList = (p.drop (64 * i)).take 64 := by
  refine List.ext_getElem (by simp; omega) fun j hj _ => ?_
  have hj : j < 64 := by simpa using hj
  rw [Vector.getElem_toList, getElem_blockAt p i hj, List.getElem_take, List.getElem_drop,
    List.getD_eq_getElem _ _ (by omega)]

theorem flatMap_blockAt {p : List Byte} :
    ∀ {k : Nat}, 64 * k ≤ p.length → (List.range k).flatMap (fun i => (blockAt p i).toList) = p.take (64 * k)
  | 0, _ => rfl
  | k + 1, h => by
    rw [List.range_succ, List.flatMap_append, flatMap_blockAt (by omega), List.flatMap_singleton,
      toList_blockAt (by omega), Nat.mul_succ, List.take_add]

/-- Settles O50: the first k blocks joined are the first 64·k bytes. -/
theorem blocksJoinToSequence : Obligations.BlocksJoinToSequence := by
  intro p hp
  have hlength : 64 * (p.length / 64) = p.length := by omega
  refine ⟨by rw [blocks, List.length_map, List.length_range], ?_⟩
  rw [blocks, List.flatMap_map, flatMap_blockAt hlength.le, hlength, List.take_length]

/-- A block that lies in the message is the same block of any longer sequence. -/
theorem blockAt_append {m : List Byte} (x : List Byte) {i : Nat} (h : 64 * i + 64 ≤ m.length) :
    blockAt (m ++ x) i = blockAt m i := by
  refine Vector.ext fun j hj => ?_
  rw [getElem_blockAt _ _ hj, getElem_blockAt _ _ hj, List.getD_append _ _ _ _ (by omega)]

/-- A longer sequence has the blocks of the message and, after them, the `d` it fills further. -/
theorem blocks_append {m x : List Byte} {d : Nat} (h : (m.length + x.length) / 64 = m.length / 64 + d) :
    blocks (m ++ x) = blocks m ++ (List.range d).map (fun i => blockAt (m ++ x) (m.length / 64 + i)) := by
  have hkept : (List.range (m.length / 64)).map (blockAt (m ++ x)) = blocks m :=
    List.map_congr_left fun i hi => blockAt_append x (by have := List.mem_range.1 hi; omega)
  rw [blocks, List.length_append, h, List.range_add, List.map_append, List.map_map, hkept]
  rfl

theorem chain_append (as bs : List Block) : chain (as ++ bs) = bs.foldl compressBlock (chain as) := List.foldl_append

/-- The block that BUF holds, by its bytes. -/
theorem block_eq_blockAt {m : Memory} {p : List Byte} {i : Nat}
    (h : ∀ j, j < 64 → Memory.read m j = p.getD (64 * i + j) 0) : Memory.block m = blockAt p i := by
  refine Vector.ext fun j hj => ?_
  rw [getElem_blockAt p i hj, ← h j hj, Memory.block, Vector.getElem_ofFn]

end Sys2Proof.Machine
end

section
/-! PROOFS. A command neither reads nor keeps the response and the events to come (46_commands.md R161): only the other
registers decide what it does, so a run through `step` is a run of the command level. -/

namespace Sys2Proof.Machine

/-- The state with another response standing and other events to come. -/
def State.withPort (s : State) (r : Option Response) (es : List Event) : State := (s.setRsp r).setPending es

theorem raise_withPort (f : CommandFault) (s : State) (r : Option Response) (es : List Event) :
    raise f (s.withPort r es) = (raise f s).setPending es := by
  have hphase : (s.withPort r es).phase = s.phase := rfl
  simp only [raise, recordFault, hphase]
  split <;> rfl

theorem block_withPort (s : State) (r : Option Response) (es : List Event) :
    block (s.withPort r es) = (block s).withPort r es := by
  have hschedule : blockSchedule (s.withPort r es) = blockSchedule s := rfl
  have hh : (s.withPort r es).h = s.h := rfl
  rw [block_eq, block_eq, hschedule, hh]
  generalize compress s.h (blockSchedule s) = h
  generalize roundsOn (blockSchedule s) 64 (Nat.le_refl 64) (Work.ofState8 s.h) = v
  generalize blockSchedule s = w
  rfl

theorem blockIfFull_withPort (s : State) (r : Option Response) (es : List Event) :
    blockIfFull (s.withPort r es) = (blockIfFull s).withPort r es := by
  have hnbytes : (s.withPort r es).nbytes = s.nbytes := rfl
  rw [blockIfFull, blockIfFull, hnbytes, block_withPort]
  split <;> rfl

theorem storeByte_withPort (b : Byte) (s : State) (r : Option Response) (es : List Event) :
    storeByte b (s.withPort r es) = (storeByte b s).withPort r es := rfl

theorem padTail1_withPort (s : State) (r : Option Response) (es : List Event) :
    padTail1 (s.withPort r es) = (padTail1 s).withPort r es := by
  have hbuf : padTail1Buf (s.withPort r es).nbytes (s.withPort r es).buf = padTail1Buf s.nbytes s.buf := rfl
  rw [padTail1, padTail1, hbuf]
  generalize padTail1Buf s.nbytes s.buf = m
  rfl

theorem padTail2_withPort (s : State) (r : Option Response) (es : List Event) :
    padTail2 (s.withPort r es) = (padTail2 s).withPort r es := by
  have hbuf : padTail2Buf (s.withPort r es).nbytes (s.withPort r es).buf = padTail2Buf s.nbytes s.buf := rfl
  rw [padTail2, padTail2, hbuf]
  generalize padTail2Buf s.nbytes s.buf = m
  rfl

theorem finishTail_withPort (s : State) (r : Option Response) (es : List Event) :
    finishTail (s.withPort r es) = (finishTail s).withPort r es := by
  have hnbytes : (s.withPort r es).nbytes = s.nbytes := rfl
  rcases Nat.lt_or_ge 55 (bufferFill s.nbytes) with hr | hr
  · rw [finishTail_of_lt_fill hr, finishTail_of_lt_fill (hnbytes ▸ hr), padTail1_withPort, block_withPort,
      padTail2_withPort, block_withPort]
  · rw [finishTail_of_fill_le hr, finishTail_of_fill_le (hnbytes ▸ hr), padTail1_withPort, block_withPort]

theorem exec_withPort {i : Instr} {s t : State} (h : exec i s = .next t) (r : Option Response) (es : List Event) :
    exec i (s.withPort r es) = .next (t.setPending es) := by
  obtain ⟨rfl, rfl⟩ | ⟨rfl, rfl⟩ | ⟨b, rfl, hs, rfl⟩ | ⟨b, rfl, hs, hfull, rfl⟩ | ⟨b, rfl, hs, hroom, rfl⟩ |
    ⟨rfl, hs, rfl⟩ | ⟨rfl, hs, rfl⟩ | ⟨x, rfl, hs, rfl⟩ | ⟨x, rfl, hs, rfl⟩ | ⟨rfl, rfl⟩ := exec_cases h
  · rfl
  · rfl
  · rw [exec_absorb_of_phase_ne (s := s.withPort r es) hs, raise_withPort]
  · rw [exec_absorb_of_counterFull (s := s.withPort r es) hs hfull, raise_withPort]
  · rw [exec_absorb_of_not_counterFull (s := s.withPort r es) hs (Bool.eq_false_iff.1 hroom), storeByte_withPort,
      blockIfFull_withPort]
    rfl
  · rw [exec_final_of_phase_ne (s := s.withPort r es) hs, raise_withPort]
  · rw [exec_final_of_active (s := s.withPort r es) hs, finishTail_withPort]
    rfl
  · rw [exec_rddig_of_phase_ne (s := s.withPort r es) hs, raise_withPort]
  · rw [exec_rddig_of_done (s := s.withPort r es) hs]
    rfl
  · rfl

theorem exec_setRsp {i : Instr} {s t : State} (h : exec i s = .next t) (r : Option Response) :
    exec i (s.setRsp r) = .next t := by
  have hpending : t.setPending s.pending = t := by rw [← exec_pending h]; rfl
  exact (exec_withPort h r s.pending).trans (congrArg _ hpending)

/-- At the command level the commands `is`, from `s`, give the responses `rs` and end in `t`. -/
def Answers (is : List Instr) (s : State) (rs : List Response) (t : State) : Prop :=
  commandRun (is.map encode) s = some (rs, t)

theorem performCommand_encode (i : Instr) (s : State) : performCommand (encode i) s = exec i s :=
  performCommand_of_command (decode_encode i) s

theorem Answers.nil (s : State) : Answers [] s [] s := rfl

theorem Answers.cons {i : Instr} {is : List Instr} {s t u : State} {r : Response} {rs : List Response}
    (ht : exec i s = .next t) (hr : t.rsp = some r) (h : Answers is t rs u) : Answers (i :: is) s (r :: rs) u := by
  have hcons := commandRun_cons ((performCommand_encode i s).trans ht) hr (is.map encode)
  rw [h] at hcons
  exact hcons

theorem Answers.single {i : Instr} {s t : State} {r : Response} (ht : exec i s = .next t) (hr : t.rsp = some r) :
    Answers [i] s [r] t :=
  Answers.cons ht hr (Answers.nil t)

theorem Answers.append {is js : List Instr} {s t u : State} {rs qs : List Response} (h : Answers is s rs t)
    (h' : Answers js t qs u) : Answers (is ++ js) s (rs ++ qs) u := by
  rw [Answers, List.map_append]
  exact commandRun_append h' h

theorem Answers.cons_inv {i : Instr} {is : List Instr} {s u : State} {rs : List Response}
    (h : Answers (i :: is) s rs u) :
    ∃ t r qs, exec i s = .next t ∧ t.rsp = some r ∧ Answers is t qs u ∧ rs = r :: qs := by
  obtain ⟨t, r, qs, ht, hr, hqs, heq⟩ := commandRun_cons_eq_some h
  exact ⟨t, r, qs, (performCommand_encode i s).symm.trans ht, hr, hqs, heq⟩

theorem Answers.length_eq {is : List Instr} {s t : State} {rs : List Response} (h : Answers is s rs t) :
    rs.length = is.length :=
  (length_of_commandRun h).trans (List.length_map _)

theorem observe_next {s t : State} (hstep : step s = .next t) {k : Nat} {rs : List Response} {u : State}
    (h : observe k t = some (rs, u)) : observe (k + 1) s = some (t.rsp.toList ++ rs, u) := by
  rw [observe, hstep]
  simp only [h]
  rfl

/-- The host presents the commands, and `step` by `step` the machine gives the command level's responses. -/
theorem Answers.observe_setPending (es : List Event) :
    ∀ {is : List Instr} {s t : State} {rs : List Response}, Answers is s rs t →
      observe is.length (s.setPending (is.map (fun i => .command (encode i)) ++ es)) = some (rs, t.setPending es)
  | [], s, t, rs, h => by
    cases h
    rfl
  | i :: is, s, t, rs, h => by
    obtain ⟨u, r, qs, hu, hr, hqs, rfl⟩ := h.cons_inv
    have hexec := exec_withPort hu s.rsp (is.map (fun i => .command (encode i)) ++ es)
    have hstep : step (s.setPending ((i :: is).map (fun i => .command (encode i)) ++ es)) =
        .next (u.setPending (is.map (fun i => .command (encode i)) ++ es)) := by
      rw [step_of_pending_command rfl, performCommand_encode]
      exact hexec
    have hall := observe_next hstep (hqs.observe_setPending es)
    rw [State.setPending_rsp, hr] at hall
    exact hall

theorem Answers.observe_presenting {is : List Instr} {s t : State} {rs : List Response} (h : Answers is s rs t) :
    observe is.length (s.presenting is) = some (rs, t.setPending s.pending) :=
  h.observe_setPending s.pending

end Sys2Proof.Machine
end

section
/-! PROOFS. The message in the state (44_state_accumulator.md R143, 40_padder.md R96): INIT begins the empty message,
each ABSORB appends its byte, and FINAL makes H the chain of the padded message's blocks. -/

namespace Sys2Proof.Machine

/-- The state is in ACTIVE with the message `m` absorbed: its length in NBYTES, the chain of its full blocks in H, and
the bytes of the unfinished block in BUF. -/
structure Absorbed (m : List Byte) (s : State) : Prop where
  phase  : s.phase = .active
  err    : s.err = .none
  wf     : Memory.wf s.buf = true
  nbytes : s.nbytes.toNat = m.length
  h      : s.h = chain (blocks m)
  buf    : ∀ j, j < m.length % 64 → Memory.read s.buf j = m.getD (64 * (m.length / 64) + j) 0

theorem Absorbed.inv {m : List Byte} {s : State} (h : Absorbed m s) : s.Inv :=
  ⟨h.wf, fun _ => by simp [h.phase], fun _ => h.err⟩

theorem Absorbed.respond {m : List Byte} {s : State} (h : Absorbed m s) (d : Byte) : Absorbed m (s.respond d) :=
  ⟨h.phase, h.err, h.wf, h.nbytes, h.h, h.buf⟩

theorem Absorbed.setPending {m : List Byte} {s : State} (h : Absorbed m s) (es : List Event) :
    Absorbed m (s.setPending es) :=
  ⟨h.phase, h.err, h.wf, h.nbytes, h.h, h.buf⟩

theorem absorbed_nil_initState {s : State} (hwf : Memory.wf s.buf = true) : Absorbed [] (initState s) :=
  ⟨rfl, rfl, hwf, rfl, rfl, fun _ hj => absurd hj (by simp)⟩

/-- The byte at the end of a message appended to. -/
theorem getD_append_singleton (m : List Byte) (b : Byte) (i : Nat) :
    (m ++ [b]).getD i 0 = if i = m.length then b else m.getD i 0 := by
  rcases Nat.lt_trichotomy i m.length with hlt | rfl | hgt
  · rw [if_neg hlt.ne, List.getD_append _ _ _ _ hlt]
  · rw [if_pos rfl, List.getD_append_right _ _ _ _ (Nat.le_refl _), Nat.sub_self]
    rfl
  · rw [if_neg hgt.ne', List.getD_eq_default _ _ (by simpa using hgt), List.getD_eq_default _ _ hgt.le]

/-- The byte stored at NBYTES mod 64 stands where the message has it. -/
theorem Absorbed.read_stored {m : List Byte} {s : State} (h : Absorbed m s) {b : Byte} {buf : Memory}
    (hbuf : ∀ a, Memory.read buf a = if a = s.nbytes.toNat % 64 then b else Memory.read s.buf a) {j : Nat}
    (hj : j ≤ m.length % 64) : Memory.read buf j = (m ++ [b]).getD (64 * (m.length / 64) + j) 0 := by
  have hend : j = m.length % 64 ↔ 64 * (m.length / 64) + j = m.length := by omega
  rw [hbuf, h.nbytes, getD_append_singleton, ← if_congr hend rfl rfl]
  split
  · rfl
  · exact h.buf j (by omega)

/-- The chain grows by the block in BUF when the byte fills it, and not otherwise. -/
theorem chain_blocks_append_singleton {m : List Byte} {b : Byte} {buf : Memory}
    (hread : ∀ j, j ≤ m.length % 64 → Memory.read buf j = (m ++ [b]).getD (64 * (m.length / 64) + j) 0) :
    chain (blocks (m ++ [b])) =
      if (m.length + 1) % 64 = 0 then compressBlock (chain (blocks m)) (Memory.block buf) else chain (blocks m) := by
  have hlength : (m.length + [b].length) / 64 = m.length / 64 + if (m.length + 1) % 64 = 0 then 1 else 0 := by
    rw [List.length_singleton]
    split <;> omega
  rw [blocks_append hlength, chain_append]
  split
  · next hfull =>
    rw [block_eq_blockAt (fun j hj => hread j (by omega))]
    rfl
  · rfl

theorem Absorbed.absorb {m : List Byte} {s : State} (h : Absorbed m s) (b : Byte)
    (hroom : s.nbytes.toNat ≠ 2 ^ 61 - 1) :
    ∃ t, exec (.absorb b) s = .next t ∧ t.rsp = some 0x000 ∧ Absorbed (m ++ [b]) t := by
  obtain ⟨-, -, hperformed⟩ := absorbStoresCountsAndCompresses b s h.wf
  obtain ⟨t, ht, ⟨hphase, herr⟩, hrsp, hnbytes, hread, hh⟩ := hperformed h.phase hroom
  have hstored : ∀ j, j ≤ m.length % 64 → Memory.read t.buf j = (m ++ [b]).getD (64 * (m.length / 64) + j) 0 :=
    fun j hj => h.read_stored hread hj
  obtain ⟨hwf, -⟩ := exec_keeps_inv h.inv ht
  have hlength : (m ++ [b]).length = m.length + 1 := by simp
  refine ⟨t, ht, hrsp, hphase.trans h.phase, herr.trans h.err, hwf, ?_, ?_, fun j hj => ?_⟩
  · rw [hnbytes, h.nbytes, hlength]
  · rw [hh, h.nbytes, h.h, chain_blocks_append_singleton hstored]
  · have hsame : (m ++ [b]).length / 64 = m.length / 64 := by omega
    rw [hsame]
    exact hstored j (by omega)

/-! FINAL: the tail blocks in BUF are the last blocks of the padded message. -/

/-- The padded message byte by byte: the message, the byte 0x80, zeros, and the length field. -/
theorem getD_padded (m : List Byte) (i : Nat) :
    (m ++ padSuffix m.length).getD i 0 =
      if i < m.length then m.getD i 0
      else if i = m.length then 0x80
      else if i + 8 < 64 * ((m.length + 8) / 64 + 1) then 0x00
      else (toBE64 (BitVec.ofNat 64 (8 * m.length))).getD (i - (64 * ((m.length + 8) / 64 + 1) - 8)) 0 := by
  have hlength := length_padded m
  split
  · next hlt => exact List.getD_append _ _ _ _ hlt
  · split
    · next _ heq => rw [List.getD_eq_getElem?_getD, heq, getElem?_padded_mark]; rfl
    · split
      · next hge hne hzero =>
        rw [List.getD_eq_getElem?_getD, getElem?_padded_zeros (by omega) (by omega)]; rfl
      · next hfield =>
        rw [← drop_padded_length, List.getD_eq_getElem?_getD, List.getD_eq_getElem?_getD, List.getElem?_drop, hlength]
        congr 2
        omega

theorem Absorbed.bufferFill_eq {m : List Byte} {s : State} (h : Absorbed m s) :
    bufferFill s.nbytes = m.length % 64 := by rw [bufferFill, h.nbytes]

theorem Absorbed.lengthField_eq {m : List Byte} {s : State} (h : Absorbed m s) :
    lengthField s.nbytes = toBE64 (BitVec.ofNat 64 (8 * m.length)) := by
  rw [lengthField, bitLength_eq_ofNat, h.nbytes]

/-- PADTAIL1 makes BUF the padded message's block after the full ones. -/
theorem Absorbed.block_padTail1Buf {m : List Byte} {s : State} (h : Absorbed m s) :
    Memory.block (padTail1Buf s.nbytes s.buf) = blockAt (m ++ padSuffix m.length) (m.length / 64) := by
  refine block_eq_blockAt fun j hj => ?_
  rw [read_padTail1Buf h.wf, h.bufferFill_eq]
  rcases Nat.lt_trichotomy j (m.length % 64) with hlt | heq | hgt
  · rw [if_neg hlt.ne, if_pos (.inl hlt), h.buf j hlt, getD_padded, if_pos (by omega)]
  · rw [if_pos heq, getD_padded, if_neg (by omega), if_pos (by omega)]
  · rw [if_neg hgt.ne', if_neg (by omega)]
    by_cases hfield : m.length % 64 ≤ 55 ∧ 56 ≤ j
    · have hindex : 64 * (m.length / 64) + j - (64 * ((m.length + 8) / 64 + 1) - 8) = j - 56 := by omega
      rw [if_pos hfield, h.lengthField_eq, getD_padded, if_neg (by omega), if_neg (by omega), if_neg (by omega), hindex]
    · rw [if_neg hfield, getD_padded, if_neg (by omega), if_neg (by omega), if_pos (by omega)]

/-- When the 0x80 stands at BUF[56] or later, PADTAIL2 makes BUF the block after that. -/
theorem Absorbed.block_padTail2Buf {m : List Byte} {s : State} (h : Absorbed m s) (hr : 55 < m.length % 64)
    {buf : Memory} (hwf : Memory.wf buf = true) :
    Memory.block (padTail2Buf s.nbytes buf) = blockAt (m ++ padSuffix m.length) (m.length / 64 + 1) := by
  refine block_eq_blockAt fun j hj => ?_
  rw [read_padTail2Buf hwf]
  by_cases hzero : j < 56
  · rw [if_pos hzero, getD_padded, if_neg (by omega), if_neg (by omega), if_pos (by omega)]
  · have hindex : 64 * (m.length / 64 + 1) + j - (64 * ((m.length + 8) / 64 + 1) - 8) = j - 56 := by omega
    rw [if_neg hzero, if_pos hj, h.lengthField_eq, getD_padded, if_neg (by omega), if_neg (by omega),
      if_neg (by omega), hindex]

/-- R166 against R143: the tail's BLOCKs carry the chain on to the end of the padded message. -/
theorem Absorbed.finishTail_h {m : List Byte} {s : State} (h : Absorbed m s) :
    (finishTail s).h = chain (blocks (m ++ padSuffix m.length)) := by
  have hlength := length_padded m
  rw [List.length_append] at hlength
  rcases Nat.lt_or_ge 55 (m.length % 64) with hr | hr
  · have htwo : (m.length + (padSuffix m.length).length) / 64 = m.length / 64 + 2 := by omega
    rw [finishTail_h_of_lt_fill (by rwa [h.bufferFill_eq]), h.block_padTail1Buf,
      h.block_padTail2Buf hr (wf_padTail1Buf h.wf _), h.h, blocks_append htwo, chain_append]
    rfl
  · have hone : (m.length + (padSuffix m.length).length) / 64 = m.length / 64 + 1 := by omega
    rw [finishTail_h_of_fill_le (by rwa [h.bufferFill_eq]), h.block_padTail1Buf, h.h, blocks_append hone, chain_append]
    rfl

/-- The counter is a 61-bit number, so a message that has been absorbed has a padding. -/
theorem Absorbed.hashOf_eq {m : List Byte} {s : State} (h : Absorbed m s) :
    hashOf m = some (digest (chain (blocks (m ++ padSuffix m.length)))) := by
  have hlt := s.nbytes.isLt
  have hpad : pad m = some (m ++ padSuffix m.length) := pad_eq_some_iff.2 ⟨by rw [← h.nbytes]; omega, rfl⟩
  rw [hashOf, hpad]
  rfl

theorem Absorbed.final {m : List Byte} {s : State} (h : Absorbed m s) :
    ∃ t, exec .final s = .next t ∧ t.rsp = some 0x000 ∧ t.phase = .done ∧ t.err = .none ∧
      hashOf m = some (digest t.h) := by
  refine ⟨_, exec_final_of_active h.phase, rfl, rfl, (finishTail_err s).trans h.err, ?_⟩
  rw [h.hashOf_eq, State.respond_h, State.setPhase_h, h.finishTail_h]

end Sys2Proof.Machine
end

section
/-! PROOFS. Whole computations (46_commands.md R169, R170): the commands of a message give its hash. -/

namespace Sys2Proof.Machine

theorem answers_absorbs :
    ∀ (bs : List Byte) {m : List Byte} {s : State}, Absorbed m s → m.length + bs.length ≤ 2 ^ 61 - 1 →
      ∃ t, Answers (bs.map .absorb) s (List.replicate bs.length 0x000) t ∧ Absorbed (m ++ bs) t
  | [], m, s, h, _ => ⟨s, Answers.nil s, by rwa [List.append_nil]⟩
  | b :: bs, m, s, h, hlength => by
    rw [List.length_cons] at hlength
    obtain ⟨t, ht, hrsp, habsorbed⟩ := h.absorb b (by rw [h.nbytes]; omega)
    obtain ⟨u, hu, hall⟩ := answers_absorbs bs habsorbed (by rw [List.length_append, List.length_singleton]; omega)
    exact ⟨u, Answers.cons ht hrsp hu, by rwa [List.append_assoc] at hall⟩

theorem answers_init_absorbs {s : State} {m : List Byte} (hwf : Memory.wf s.buf = true) (hm : m.length ≤ 2 ^ 61 - 1) :
    ∃ t, Answers ([.init] ++ m.map .absorb) s (List.replicate (m.length + 1) 0x000) t ∧ Absorbed m t := by
  obtain ⟨t, ht, habsorbed⟩ := answers_absorbs m ((absorbed_nil_initState hwf).respond 0x00) (by simpa using hm)
  exact ⟨t, Answers.cons (exec_init s) rfl ht, habsorbed⟩

/-- Settles O51: `Absorbed` holds after INIT and is kept by each ABSORB. -/
theorem absorbedMessageIsInState : Obligations.AbsorbedMessageIsInState := by
  intro s m hwf hm
  obtain ⟨t, ht, habsorbed⟩ := answers_init_absorbs hwf hm
  have hlength : ([Instr.init] ++ m.map Instr.absorb).length = m.length + 1 := by simp
  have hall := habsorbed.setPending s.pending
  exact ⟨_, hlength ▸ ht.observe_presenting, hall.phase, hall.err, hall.nbytes, hall.h, hall.buf, rfl⟩

/-- R169 up to FINAL: each command answers 0x000, and the digest of H is the hash. -/
theorem answers_hashCommands {s : State} {m : List Byte} (hwf : Memory.wf s.buf = true) (hm : m.length ≤ 2 ^ 61 - 1) :
    ∃ t, Answers (hashCommands m) s (List.replicate (m.length + 2) 0x000) t ∧ t.phase = .done ∧ t.err = .none ∧
      hashOf m = some (digest t.h) := by
  obtain ⟨t, ht, habsorbed⟩ := answers_init_absorbs hwf hm
  obtain ⟨u, hu, hrsp, hphase, herr, hhash⟩ := habsorbed.final
  have hall := ht.append (Answers.single hu hrsp)
  rw [← List.replicate_succ'] at hall
  exact ⟨u, hall, hphase, herr, hhash⟩

/-- RDDIG after RDDIG reads the DIG window and leaves it as it is (R167). -/
theorem answers_rddigs :
    ∀ (xs : List (BitVec 5)) {s : State}, s.phase = .done →
      ∃ t, Answers (xs.map .rddig) s (xs.map (fun x => okResponse (readDig s.h x))) t ∧ t.phase = .done ∧ t.err = s.err
  | [], s, h => ⟨s, Answers.nil s, h, rfl⟩
  | x :: xs, s, h => by
    obtain ⟨t, ht, hphase, herr⟩ := answers_rddigs xs (s := s.respond (readDig s.h x)) h
    exact ⟨t, Answers.cons (exec_rddig_of_done h x) rfl ht, hphase, herr⟩

/-- The window's 32 bytes in order are the digest. -/
theorem map_readDig_range (h : State8) : (List.range 32).map (fun i => readDig h (BitVec.ofNat 5 i)) = digest h := by
  refine List.ext_getElem? fun i => ?_
  rw [List.getElem?_map]
  by_cases hi : i < 32
  · have hindex : (BitVec.ofNat 5 i).toNat = i := by rw [BitVec.toNat_ofNat, Nat.mod_eq_of_lt hi]
    rw [List.getElem?_range hi, Option.map_some, ← getElem?_digest, hindex]
  · rw [List.getElem?_eq_none (by simpa using hi), Option.map_none,
      List.getElem?_eq_none (by rw [length_digest]; omega)]

theorem answers_readCommands {s : State} (hdone : s.phase = .done) :
    ∃ t, Answers readCommands s ((digest s.h).map (fun b => (0#1 ++ b : Response))) t ∧ t.phase = .done ∧
      t.err = s.err := by
  obtain ⟨t, ht, hphase, herr⟩ := answers_rddigs ((List.range 32).map (BitVec.ofNat 5)) hdone
  rw [List.map_map, List.map_map] at ht
  refine ⟨t, ?_, hphase, herr⟩
  rw [← map_readDig_range, List.map_map]
  exact ht

/-- Settles O52: the message's commands, then the 32 reads of its hash. -/
theorem oneShotCommandsComputeHash : Obligations.OneShotCommandsComputeHash := by
  intro s m hwf hm
  obtain ⟨t, ht, hphase, herr, hhash⟩ := answers_hashCommands hwf hm
  obtain ⟨u, hu, hdone, hsame⟩ := answers_readCommands hphase
  have hlength : (hashCommands m ++ readCommands).length = m.length + 34 := by simp [hashCommands, readCommands]
  exact ⟨digest t.h, u.setPending s.pending, hhash, length_digest t.h, hlength ▸ (ht.append hu).observe_presenting,
    hdone, hsame.trans herr, rfl⟩

/-- Settles O54: the ABSORBs of the chunks in turn are the ABSORBs of the joined message, so O52 is about them. -/
theorem chunkBoundariesDoNotMatter : Obligations.ChunkBoundariesDoNotMatter := by
  intro s chunks hwf hm commands
  have hcommands : commands = hashCommands chunks.flatten := by
    rw [hashCommands, List.map_flatten, ← List.flatMap_def]
  exact ⟨hcommands, hcommands ▸ oneShotCommandsComputeHash s chunks.flatten hwf hm⟩

end Sys2Proof.Machine
end

section
/-! PROOFS. NOP and RDSTAT anywhere (46_commands.md R169): they write the response alone, and no command reads that. -/

namespace Sys2Proof.Machine

theorem exec_of_isNeutral {i : Instr} (h : isNeutral i = true) (s : State) : ∃ d, exec i s = .next (s.respond d) := by
  cases i with
  | nop => exact ⟨_, exec_nop s⟩
  | rdstat => exact ⟨_, exec_rdstat s⟩
  | init | absorb | final | rddig => cases h

/-- Commands that all answer FAULT = 0 once the neutral ones are taken out do so with them, from a state with any
response standing, and end in the same state but for the response. -/
theorem Answers.insert_neutral {t : State} :
    ∀ (is : List Instr) {s : State} {rs : List Response}, Answers (is.filter (fun i => !isNeutral i)) s rs t →
      (∀ r ∈ rs, r.getLsbD 8 = false) → ∀ standing : Option Response,
      ∃ qs last, Answers is (s.setRsp standing) qs (t.setRsp last) ∧ ∀ r ∈ qs, r.getLsbD 8 = false
  | [], s, rs, h, _, standing => by
    cases h
    exact ⟨[], standing, Answers.nil _, by simp⟩
  | i :: is, s, rs, h, hrs, standing => by
    cases hneutral : isNeutral i with
    | true =>
      rw [List.filter_cons_of_neg (by simp [hneutral])] at h
      obtain ⟨d, hd⟩ := exec_of_isNeutral hneutral (s.setRsp standing)
      obtain ⟨qs, last, hqs, hok⟩ := Answers.insert_neutral is h hrs (some (okResponse d))
      exact ⟨_, last, Answers.cons hd rfl hqs, List.forall_mem_cons.2 ⟨okResponse_fault d, hok⟩⟩
    | false =>
      rw [List.filter_cons_of_pos (by simp [hneutral])] at h
      obtain ⟨u, r, rest, hu, hr, hrest, rfl⟩ := h.cons_inv
      obtain ⟨hfirst, hothers⟩ := List.forall_mem_cons.1 hrs
      obtain ⟨qs, last, hqs, hok⟩ := Answers.insert_neutral is hrest hothers u.rsp
      exact ⟨_, last, Answers.cons (exec_setRsp hu standing) hr hqs, List.forall_mem_cons.2 ⟨hfirst, hok⟩⟩

/-- Settles O53: the commands of R169 answer 0x000 each, so the neutral ones may be inserted. -/
theorem neutralCommandsDoNotChangeHash : Obligations.NeutralCommandsDoNotChangeHash := by
  intro s m is hwf hm hfilter
  obtain ⟨t, ht, hphase, -, hhash⟩ := answers_hashCommands hwf hm
  have hok : ∀ r ∈ List.replicate (m.length + 2) (0x000 : Response), r.getLsbD 8 = false := fun r hr => by
    rw [List.eq_of_mem_replicate hr]
    rfl
  obtain ⟨qs, last, hqs, hqsok⟩ := Answers.insert_neutral is (hfilter ▸ ht) hok s.rsp
  exact ⟨qs, _, Answers.observe_presenting (s := s) hqs, hqs.length_eq, hqsok, hphase, hhash⟩

end Sys2Proof.Machine
end

section
/-! PROOFS. RESET_DATA reaches no response (10_state.md R35): two machines given the same choices hold the same message
whenever they hold one, because only INIT leads to ACTIVE and INIT forgets. -/

namespace Sys2Proof.Machine

/-- The message after a command that leads to ACTIVE, from the message before it. -/
def messageAfter (m : List Byte) : Instr → List Byte
  | .init => []
  | .absorb b => m ++ [b]
  | _ => m

theorem messageAfter_of_isReader {i : Instr} (h : isReader i = true) (m : List Byte) : messageAfter m i = m := by
  cases i with
  | nop | rddig | rdstat => rfl
  | init | absorb | final => cases h

theorem absorbed_of_exec {m : List Byte} {i : Instr} {s t : State} (hwf : Memory.wf s.buf = true)
    (hm : s.phase = .active → Absorbed m s) (h : exec i s = .next t) (hactive : t.phase = .active) :
    Absorbed (messageAfter m i) t := by
  obtain ⟨hreader, d, rfl⟩ | ⟨rfl, rfl⟩ | ⟨b, rfl, hs, hroom, -⟩ | ⟨-, -, rfl⟩ | ⟨f, rfl⟩ := exec_effects h
  · rw [messageAfter_of_isReader hreader]
    exact (hm hactive).respond d
  · exact (absorbed_nil_initState hwf).respond _
  · obtain ⟨u, hu, -, habsorbed⟩ := (hm hs).absorb b (mt (counterFull_iff _).2 hroom)
    obtain rfl := Host.Outcome.next.inj (hu.symm.trans h)
    exact habsorbed
  · cases hactive
  · rw [raise_phase] at hactive
    cases hactive

/-- A command that leads to DONE is FINAL, which leaves the hash of the message, or it leaves H. -/
theorem digest_of_exec {i : Instr} {s t : State} (h : exec i s = .next t) (hdone : t.phase = .done) :
    (s.phase = .done ∧ t.h = s.h) ∨
      (s.phase = .active ∧ ∀ m, Absorbed m s → hashOf m = some (digest t.h)) := by
  obtain ⟨-, _, rfl⟩ | ⟨-, rfl⟩ | ⟨_, -, hs, -, rfl⟩ | ⟨rfl, hs, -⟩ | ⟨f, rfl⟩ := exec_effects h
  · exact .inl ⟨hdone, rfl⟩
  · cases hdone
  · simp [hs] at hdone
  · refine .inr ⟨hs, fun m hm => ?_⟩
    obtain ⟨u, hu, -, -, -, hhash⟩ := hm.final
    obtain rfl := Host.Outcome.next.inj (hu.symm.trans h)
    exact hhash
  · rw [raise_phase] at hdone
    cases hdone

/-- The two machines are at the same point of the same computation: one PHASE, one ERR, in ACTIVE one message, in DONE
one H. Nothing is said of what reset left in the other registers. -/
structure SameComputation (s u : State) : Prop where
  phase  : s.phase = u.phase
  err    : s.err = u.err
  left   : s.Inv
  right  : u.Inv
  active : s.phase = .active → ∃ m, Absorbed m s ∧ Absorbed m u
  done   : s.phase = .done → s.h = u.h

theorem SameComputation.looksLike {s u : State} (h : SameComputation s u) : LooksLike s u where
  phase := h.phase
  err := h.err
  nbytes hactive := by
    obtain ⟨m, hs, hu⟩ := h.active hactive
    exact BitVec.eq_of_toNat_eq (hs.nbytes.trans hu.nbytes.symm)
  h := h.done

theorem SameComputation.setPending {s u : State} (h : SameComputation s u) (es fs : List Event) :
    SameComputation (s.setPending es) (u.setPending fs) where
  phase := h.phase
  err := h.err
  left := h.left
  right := h.right
  active hactive := by
    obtain ⟨m, hs, hu⟩ := h.active hactive
    exact ⟨m, hs.setPending es, hu.setPending fs⟩
  done := h.done

theorem sameComputation_resetEvent (d e : ResetData) (s u : State) :
    SameComputation (resetEvent d s) (resetEvent e u) where
  phase := rfl
  err := rfl
  left := ⟨Memory.wf_ofBlock d.buf, by simp⟩
  right := ⟨Memory.wf_ofBlock e.buf, by simp⟩
  active hactive := by cases hactive
  done hdone := by cases hdone

/-- Fault entry leads to ERROR, where no message and no hash is held. -/
theorem SameComputation.raise {s u : State} (h : SameComputation s u) (f : CommandFault) :
    SameComputation (raise f s) (raise f u) where
  phase := by rw [raise_phase, raise_phase]
  err := by rw [raise_err, raise_err, h.phase, h.err]
  left := inv_raise h.left f
  right := inv_raise h.right f
  active hactive := by rw [raise_phase] at hactive; cases hactive
  done hdone := by rw [raise_phase] at hdone; cases hdone

theorem SameComputation.exec {s u t v : State} {i : Instr} (h : SameComputation s u) (ht : exec i s = .next t)
    (hv : exec i u = .next v) (hphase : t.phase = v.phase) (herr : t.err = v.err) : SameComputation t v where
  phase := hphase
  err := herr
  left := exec_keeps_inv h.left ht
  right := exec_keeps_inv h.right hv
  active hactive := by
    obtain ⟨hsbuf, -⟩ := h.left
    obtain ⟨hubuf, -⟩ := h.right
    obtain ⟨m, hs, hu⟩ : ∃ m, (s.phase = .active → Absorbed m s) ∧ (u.phase = .active → Absorbed m u) := by
      by_cases hphase : s.phase = .active
      · obtain ⟨m, hs, hu⟩ := h.active hphase
        exact ⟨m, fun _ => hs, fun _ => hu⟩
      · exact ⟨[], fun hs => absurd hs hphase, fun hu => absurd (h.phase.trans hu) hphase⟩
    exact ⟨_, absorbed_of_exec hsbuf hs ht hactive, absorbed_of_exec hubuf hu hv (hphase ▸ hactive)⟩
  done hdone := by
    obtain ⟨hs, hth⟩ | ⟨hs, hthash⟩ := digest_of_exec ht hdone <;>
      obtain ⟨hu, hvh⟩ | ⟨hu, hvhash⟩ := digest_of_exec hv (hphase ▸ hdone)
    · rw [hth, hvh, h.done hs]
    · cases hs.symm.trans (h.phase.trans hu)
    · cases hs.symm.trans (h.phase.trans hu)
    · obtain ⟨m, hms, hmu⟩ := h.active hs
      exact digest_injective (Option.some.inj ((hthash m hms).symm.trans (hvhash m hmu)))

theorem SameComputation.performCommand {s u : State} (h : SameComputation s u) (w : CmdWord) :
    ∃ t v, performCommand w s = .next t ∧ performCommand w u = .next v ∧ t.rsp = v.rsp ∧ SameComputation t v := by
  obtain ⟨t, v, ht, hv, hrsp, hphase, herr⟩ := h.looksLike.performCommand w
  refine ⟨t, v, ht, hv, hrsp, ?_⟩
  cases hdecode : decode w with
  | command i =>
    rw [performCommand_of_command hdecode] at ht hv
    exact h.exec ht hv hphase herr
  | illegal why =>
    rw [performCommand_of_illegal hdecode] at ht hv
    obtain rfl := Host.Outcome.next.inj ht
    obtain rfl := Host.Outcome.next.inj hv
    exact h.raise _

theorem performCommand_pending {w : CmdWord} {s t : State} (h : performCommand w s = .next t) :
    t.pending = s.pending := by
  cases hdecode : decode w with
  | command i =>
    rw [performCommand_of_command hdecode] at h
    exact exec_pending h
  | illegal why =>
    rw [performCommand_of_illegal hdecode] at h
    obtain rfl := Host.Outcome.next.inj h
    exact raise_pending _ s

/-- One step of the two machines on events of one choice. -/
theorem SameComputation.step {s u : State} {e f : Event} {es fs : List Event} (h : SameComputation s u)
    (hs : s.pending = e :: es) (hu : u.pending = f :: fs) (hchoice : e.choice = f.choice) :
    ∃ t v, step s = .next t ∧ step u = .next v ∧ t.rsp = v.rsp ∧ t.pending = es ∧ v.pending = fs ∧
      SameComputation t v := by
  match e, f, hchoice with
  | .command w, .command _, rfl =>
    obtain ⟨t, v, ht, hv, hrsp, hsame⟩ := (h.setPending es fs).performCommand w
    exact ⟨t, v, (step_of_pending_command hs).trans ht, (step_of_pending_command hu).trans hv, hrsp,
      performCommand_pending ht, performCommand_pending hv, hsame⟩
  | .reset d, .reset d', _ =>
    exact ⟨_, _, step_of_pending_reset hs, step_of_pending_reset hu, rfl, rfl, rfl,
      sameComputation_resetEvent d d' _ _⟩

theorem SameComputation.observe {es fs : List Event} {s u : State} (h : SameComputation s u) (hs : s.pending = es)
    (hu : u.pending = fs) (hchoice : es.map Event.choice = fs.map Event.choice) :
    ∃ rs t v, observe es.length s = some (rs, t) ∧ observe fs.length u = some (rs, v) ∧ SameComputation t v := by
  induction es generalizing fs s u with
  | nil =>
    obtain rfl := List.map_eq_nil_iff.1 hchoice.symm
    exact ⟨[], s, u, rfl, rfl, h⟩
  | cons e es ih =>
    obtain ⟨f, fs, rfl, hfirst, hothers⟩ := List.map_eq_cons_iff.1 hchoice.symm
    obtain ⟨t, v, ht, hv, hrsp, htpending, hvpending, hsame⟩ := h.step hs hu hfirst.symm
    obtain ⟨rs, t', v', hrunt, hrunv, hend⟩ := ih hsame htpending hvpending hothers.symm
    exact ⟨_, t', v', observe_next ht hrunt, hrsp ▸ observe_next hv hrunv, hend⟩

/-- Settles O55: out of reset no message is held, and every event keeps the two machines at the same point. -/
theorem resetDataReachesNoResponse : Obligations.ResetDataReachesNoResponse := by
  intro s u d e es fs hchoice
  have hstart := (sameComputation_resetEvent d e s u).setPending es fs
  obtain ⟨rs, t, v, ht, hv, hend⟩ := hstart.observe rfl rfl hchoice
  exact ⟨rs, t, v, ht, hv, hend.phase, hend.err⟩

end Sys2Proof.Machine
end
